-- ==== Sys2Proof/Config.lean ====
section
/-!
DEFINITION. What one CORE fixes for good (spec 00_scope R2, R5): the reference configuration, the open polynomial,
and the free values of the random source. Every register and operation of the model is generic in the frame
length, the CRC width and the polynomial; the machine `exec` and `step` take them from here.
-/

namespace Sys2Proof.Config

/-- Frame length of the reference configuration (spec 00_scope R5). -/
abbrev frameLen : Nat := 83

/-- CRC width of the reference configuration (spec 00_scope R5). -/
abbrev crcWidth : Nat := 15

/-- Width of the ARG field (spec 00_scope R5, decision D22). -/
abbrev argWidth : Nat := 8

/-- Width of the CNT field (spec 00_scope R5, decision D22). -/
abbrev cntWidth : Nat := 48

/-- POLY is OPEN (spec 00_scope R5, R7; 93 U1): the low bits of the generator polynomial, its top bit implied.
No body: nothing can be proved of its value. Safe; log 1. -/
opaque poly : BitVec crcWidth

/-- What the random source answers to its `t`-th request once the answers that the state lists are used up
(spec 10_state R24; 93 U3). No body. Safe; log 3. -/
opaque freeDraw : Nat → Nat

end Sys2Proof.Config
end

