-- ==== Sys2Proof/Word.lean ====
section
/-!
DEFINITION. The plain types of the CORE: the command word, the counters, an error pattern, the names of the
four faults.
-/

namespace Sys2Proof

/-- A command word as presented on `cmd_word` (spec 30_encoding R46). -/
abbrev CmdWord := BitVec 64

/-- TRIALS and COLLISIONS: 64 bits, unsigned (spec 10_state R15, R16). -/
abbrev Counter := BitVec 64

/-- An error pattern, written as the tuple of its indices (spec 42_pattern_generator R80). -/
abbrev Pattern := List Nat

/-- The four faults of spec 60_exceptions R121. -/
inductive FaultKind where
  /-- An index outside the frame (R124). -/
  | idxOob
  /-- An undefined operation code (R122). -/
  | illegalOp
  /-- A defined operation code with a reserved field that is not zero (R123). -/
  | illegalField
  /-- A burst length below 2 (R127). -/
  | illegalArg
  deriving DecidableEq, Repr

end Sys2Proof
end

