-- ==== Sys2Proof/Syntax.lean ====
section
/-!
DEFINITION. The nine commands (spec 30_encoding R47, R48), with their operands as the unsigned integers the
assembler line names (R51, R56). `WellFormed` says which operands the fields of a word can hold.
-/

namespace Sys2Proof

/-- One command, with its operands. -/
inductive Instr where
  /-- Do nothing (spec 44_control R110). -/
  | nop
  /-- Read the frame bit `i` into GETQ (spec 40_bitframe R61). -/
  | fget (i : Nat)
  /-- Toggle the frame bit `i` (spec 40_bitframe R62). -/
  | fflip (i : Nat)
  /-- Replace the whole frame by a draw (spec 40_bitframe R63). -/
  | frand
  /-- Compute the checksum of the frame (spec 41_crcengine R74). -/
  | crc
  /-- Keep the checksum as the target (spec 41_crcengine R75). -/
  | tgt
  /-- Sweep over all patterns of weight `k` (spec 43_collision_counter R99). -/
  | exh (k : Nat)
  /-- Sweep over `cnt` drawn patterns of weight `k` (spec 43_collision_counter R100). -/
  | rnd (k cnt : Nat)
  /-- Sweep over all bursts of length `len` (spec 43_collision_counter R101). -/
  | burst (len : Nat)
  deriving DecidableEq, Repr

end Sys2Proof
end

