-- ==== Sys2Proof/WellFormed.lean ====
section
/-!
DEFINITION. Which commands a word can spell: the argument fits the ARG field and the trial count the CNT field
(spec 30_encoding R46, R51, R56: "otherwise the line spells no command").
-/

namespace Sys2Proof

/-- The first operand, or 0 when there is none (spec 30_encoding R57). -/
def Instr.argOperand : Instr → Nat
  | .fget i | .fflip i => i
  | .exh k => k
  | .rnd k _ => k
  | .burst len => len
  | .nop | .frand | .crc | .tgt => 0

/-- The second operand, or 0 when there is none (spec 30_encoding R57). -/
def Instr.cntOperand : Instr → Nat
  | .rnd _ cnt => cnt
  | .nop | .fget _ | .fflip _ | .frand | .crc | .tgt | .exh _ | .burst _ => 0

/-- The command's operands fit their fields. -/
abbrev Instr.WellFormed (i : Instr) : Prop :=
  i.argOperand < 2 ^ Config.argWidth ∧ i.cntOperand < 2 ^ Config.cntWidth

end Sys2Proof
end

