-- ==== Sys2Proof/Decode.lean ====
section
/-!
DEFINITION. Decoding and encoding of a command word (spec 30_encoding R46 to R55, R57). The decoder is total: every
64-bit word is one of the nine commands or one of the two decode faults (R55). The encoder is written from
the same tables.
-/

namespace Sys2Proof

/-- The nine defined operation codes by name (spec 30_encoding R47). -/
inductive Opcode where
  | nop | fget | fflip | frand | crc | tgt | exh | rnd | burst
  deriving DecidableEq, Repr

/-- The value of the OP field (spec 30_encoding R47, R48). -/
def Opcode.bits : Opcode → BitVec 8
  | .nop => 0x00#8
  | .fget => 0x01#8
  | .fflip => 0x02#8
  | .frand => 0x03#8
  | .crc => 0x04#8
  | .tgt => 0x05#8
  | .exh => 0x08#8
  | .rnd => 0x09#8
  | .burst => 0x0A#8

/-- All operation codes, in the order of the opcode map (spec 30_encoding R48). -/
def Opcode.all : List Opcode :=
  [.nop, .fget, .fflip, .frand, .crc, .tgt, .exh, .rnd, .burst]

/-- The operation code an OP field names; every other value is undefined (spec 30_encoding R49). -/
def Opcode.ofBits (op : BitVec 8) : Option Opcode :=
  Opcode.all.find? fun o => o.bits == op

/-- The commands that use ARG; for the others it is reserved (spec 30_encoding R47). -/
def Opcode.usesArg : Opcode → Bool
  | .fget | .fflip | .exh | .rnd | .burst => true
  | .nop | .frand | .crc | .tgt => false

/-- The commands that use CNT; for the others it is reserved (spec 30_encoding R47). -/
def Opcode.usesCnt : Opcode → Bool
  | .rnd => true
  | .nop | .fget | .fflip | .frand | .crc | .tgt | .exh | .burst => false

/-- The OP field, bits 63:56 (spec 30_encoding R46). -/
def opField (w : CmdWord) : BitVec 8 := w.extractLsb' 56 8

/-- The ARG field, bits 55:48 (spec 30_encoding R46). -/
def argField (w : CmdWord) : BitVec 8 := w.extractLsb' 48 8

/-- The CNT field, bits 47:0 (spec 30_encoding R46). -/
def cntField (w : CmdWord) : BitVec 48 := w.extractLsb' 0 48

/-- The word with the given fields, OP highest (spec 30_encoding R46). -/
def packWord (op arg : BitVec 8) (cnt : BitVec 48) : CmdWord := op ++ arg ++ cnt

/-- A field that the command does not use is not all zeros (spec 30_encoding R50). -/
def reservedSet (o : Opcode) (arg : BitVec 8) (cnt : BitVec 48) : Bool :=
  (!o.usesArg && arg != 0#8) || (!o.usesCnt && cnt != 0#48)

/-- The command an operation code spells with its operands as unsigned integers (spec 30_encoding R51). -/
def Opcode.instr (o : Opcode) (arg : BitVec 8) (cnt : BitVec 48) : Instr :=
  match o with
  | .nop => .nop
  | .fget => .fget arg.toNat
  | .fflip => .fflip arg.toNat
  | .frand => .frand
  | .crc => .crc
  | .tgt => .tgt
  | .exh => .exh arg.toNat
  | .rnd => .rnd arg.toNat cnt.toNat
  | .burst => .burst arg.toNat

/-- Decoding an accepted word: first the operation code, then the reserved fields (spec 30_encoding R55;
60_exceptions R128). -/
def decode (w : CmdWord) : Except FaultKind Instr :=
  match Opcode.ofBits (opField w) with
  | none => .error .illegalOp
  | some o =>
    if reservedSet o (argField w) (cntField w) then .error .illegalField
    else .ok (o.instr (argField w) (cntField w))

/-- The operation code of a command (spec 30_encoding R47). -/
def Instr.opcode : Instr → Opcode
  | .nop => .nop
  | .fget _ => .fget
  | .fflip _ => .fflip
  | .frand => .frand
  | .crc => .crc
  | .tgt => .tgt
  | .exh _ => .exh
  | .rnd _ _ => .rnd
  | .burst _ => .burst

/-- The word of a command: its OP, ARG and CNT (spec 30_encoding R57). -/
def encode (i : Instr) : CmdWord :=
  packWord i.opcode.bits (BitVec.ofNat 8 i.argOperand) (BitVec.ofNat 48 i.cntOperand)

/-- One row of the opcode map: a word is the command when its masked bits are the match value. -/
structure OpcodeRow where
  opcode : Opcode
  matchBits : CmdWord
  maskBits : CmdWord
  deriving DecidableEq, Repr

/-- The opcode map, match and mask as the spec prints them (spec 30_encoding R48). -/
def opcodeTable : List OpcodeRow :=
  [⟨.nop, 0x0000000000000000#64, 0xFFFFFFFFFFFFFFFF#64⟩,
   ⟨.fget, 0x0100000000000000#64, 0xFF00FFFFFFFFFFFF#64⟩,
   ⟨.fflip, 0x0200000000000000#64, 0xFF00FFFFFFFFFFFF#64⟩,
   ⟨.frand, 0x0300000000000000#64, 0xFFFFFFFFFFFFFFFF#64⟩,
   ⟨.crc, 0x0400000000000000#64, 0xFFFFFFFFFFFFFFFF#64⟩,
   ⟨.tgt, 0x0500000000000000#64, 0xFFFFFFFFFFFFFFFF#64⟩,
   ⟨.exh, 0x0800000000000000#64, 0xFF00FFFFFFFFFFFF#64⟩,
   ⟨.rnd, 0x0900000000000000#64, 0xFF00000000000000#64⟩,
   ⟨.burst, 0x0A00000000000000#64, 0xFF00FFFFFFFFFFFF#64⟩]

/-- The row selects the word (spec 30_encoding R48). -/
def OpcodeRow.selects (row : OpcodeRow) (w : CmdWord) : Bool :=
  (w &&& row.maskBits) == row.matchBits

/-- The instruction the decoder reads from a table word of `nbits` bits, the bits above them zero: bit 0 of the
table's numbering is bit 0 of the command word, which is never split (spec 20_memory R33). -/
def decodeTableWord (nbits w : Nat) : Option Instr :=
  match decode (BitVec.ofNat 64 (w % 2 ^ nbits)) with
  | .ok i => some i
  | .error _ => none

end Sys2Proof
end

