-- ==== Sys2Proof/Machine/State.lean ====
section
/-!
DEFINITION. The state of the CORE (spec 10_state R10 to R24), generic in the frame length and the CRC width, and
the machine's `State`: the registers at the reference configuration, with the input pins the host will drive.
Plain data throughout.
-/

namespace Sys2Proof.Machine

/-- The sequencer state (spec 10_state R18). -/
inductive Seq where
  /-- No command in progress; a command may be accepted. -/
  | idle
  /-- A command is executing; no command is accepted. -/
  | busy
  /-- A fault was raised; no command is accepted until reset. -/
  | halt
  deriving DecidableEq, Repr

/-- GEN, the generator position (spec 10_state R23). It exists only while a sweep command executes. -/
inductive Gen where
  /-- No sweep in progress: the generator's registers do not exist (DESIGN CHOICE; log 8). -/
  | none
  /-- EXH: the current combination, its index registers in increasing order. -/
  | exh (c : List Nat)
  /-- RND: the weight, the trials still to run, the current drawn pattern. -/
  | rnd (k rem : Nat) (p : List Nat)
  /-- BURST: the length, the start offset, the interior mask. -/
  | burst (len s m : Nat)
  deriving DecidableEq, Repr

/-- The random source as the CORE meets it at its port (spec 10_state R24): an input, not a register. Each answer
is one natural number, from which a draw of the requested type is read (log 3). -/
structure RandomSource where
  /-- The answers to the coming requests, the next one first; past their end `Config.freeDraw` answers. -/
  answers : List Nat
  /-- How many requests have been answered. -/
  served : Nat
  deriving DecidableEq, Repr

/-- One sample of the input pins `rst`, `cmd_valid`, `cmd_word` (spec 10_state R26). -/
structure HostPins where
  rst : Bool
  cmdValid : Bool
  cmdWord : CmdWord
  deriving DecidableEq, Repr

/-- Every register of the CORE (the table of spec 10_state R10), for a frame of `n` bits and a CRC of `w` bits,
with the random source at its port. -/
structure CoreState (n w : Nat) where
  /-- FRAME; bit `i` of the vector is `FRAME[i]` (R11). -/
  frame : BitVec n
  /-- R, the CRC shift register (R12). -/
  r : BitVec w
  /-- CSUM, the checksum result register (R13). -/
  csum : BitVec w
  /-- TARGET, the target checksum (R14). -/
  target : BitVec w
  /-- TRIALS (R15). -/
  trials : Counter
  /-- COLLISIONS (R16). -/
  collisions : Counter
  /-- GETQ, the bit most recently read by FGET (R17). -/
  getq : Bool
  /-- OVF, the counter range flag (R17). -/
  ovf : Bool
  /-- SEQ, the sequencer state (R18). -/
  seq : Seq
  /-- FCODE, the fault code (R21). -/
  fcode : BitVec 4
  /-- FINFO, the command word that raised the fault (R22). -/
  finfo : CmdWord
  /-- GEN, the generator position (R23). -/
  gen : Gen
  /-- The random source's port (R24). -/
  random : RandomSource
  deriving DecidableEq, Repr

/-- The machine: the CORE at the reference configuration, and the samples of its input pins still to come, one for
each step, the next one first; past their end the pins are quiet (log 5). -/
structure State extends CoreState Config.frameLen Config.crcWidth where
  host : List HostPins
  deriving DecidableEq, Repr

/-- Why a step could stop the machine. Nothing does: each fault of the spec is a next state in HALT
(spec 60_exceptions R125; log 14), so there is no constructor. -/
inductive Fault where
  deriving DecidableEq, Repr

/-- Why a step could be refused. -/
inductive Refusal where
  /-- An arm of `exec` whose instruction has no meaning yet; no arm is left so. Safe. -/
  | notModelled (mnemonic : String)
  deriving DecidableEq, Repr

/-- Every register at its reset value (spec 10_state R29, 70_reset_and_hazards R140). GEN, which the spec leaves
unspecified there, is the absent generator (log 8); the random source lists no answer (log 3). -/
def CoreState.reset (n w : Nat) : CoreState n w where
  frame := 0
  r := 0
  csum := 0
  target := 0
  trials := 0
  collisions := 0
  getq := false
  ovf := false
  seq := .idle
  fcode := 0
  finfo := 0
  gen := .none
  random := ⟨[], 0⟩

/-- The machine right after reset, with quiet pins (spec 70_reset_and_hazards R140). -/
def State.reset : State where
  toCoreState := CoreState.reset Config.frameLen Config.crcWidth
  host := []

end Sys2Proof.Machine
end

