-- ==== Sys2Proof/Machine/Ops.lean ====
section
/-!
DEFINITION. The shared operations of the CORE: the frame primitives, acceptance and completion of a command, fault
entry, reset, and one request to the random source.
-/

namespace Sys2Proof.Machine

/-- `FrameRead(i)`: one frame bit (spec 00_scope R8, 20_memory R35). -/
def frameRead {n : Nat} (f : BitVec n) (i : Nat) : Bool := f.getLsbD i

/-- `FrameFlip(i)`: toggle one frame bit, `FRAME[i] <- FRAME[i] xor 1` (spec 00_scope R8, 20_memory R35). -/
def frameFlip {n : Nat} (f : BitVec n) (i : Nat) : BitVec n := f ^^^ BitVec.twoPow n i

/-- FCODE's value for each fault (spec 60_exceptions R121). -/
def FaultKind.code : FaultKind → BitVec 4
  | .idxOob => 1#4
  | .illegalOp => 2#4
  | .illegalField => 3#4
  | .illegalArg => 4#4

/-- A command is accepted: IDLE to BUSY (spec 10_state R18). -/
def CoreState.accept {n w : Nat} (s : CoreState n w) : CoreState n w := { s with seq := .busy }

/-- A command completes: BUSY to IDLE (spec 10_state R18). -/
def CoreState.complete {n w : Nat} (s : CoreState n w) : CoreState n w := { s with seq := .idle }

/-- Fault entry: the code, the command word and HALT; every other register keeps its value
(spec 60_exceptions R125). There is no return from it but reset (R126). -/
def CoreState.faultEntry {n w : Nat} (kind : FaultKind) (word : CmdWord) (s : CoreState n w) : CoreState n w :=
  { s with fcode := FaultKind.code kind, finfo := word, seq := .halt }

/-- `rst`: every register takes its reset value in any SEQ state (spec 70_reset_and_hazards R140, R141). The random
source is no part of the CORE and is left as it is (log 6). -/
def CoreState.applyReset {n w : Nat} (s : CoreState n w) : CoreState n w :=
  { CoreState.reset n w with random := s.random }

/-- One request to the random source and its answer (spec 10_state R24): the next answer the state lists, else a free
value (log 3). -/
def RandomSource.draw (src : RandomSource) : Nat × RandomSource :=
  match src.answers with
  | a :: rest => (a, ⟨rest, src.served + 1⟩)
  | [] => (Config.freeDraw src.served, ⟨[], src.served + 1⟩)

/-- Pins on which the host does nothing. -/
def HostPins.quiet : HostPins := ⟨false, false, 0#64⟩

/-- Pins on which the host presents a command word (spec 30_encoding R45). -/
def HostPins.present (word : CmdWord) : HostPins := ⟨false, true, word⟩

/-- Pins on which the host asserts `rst` (spec 70_reset_and_hazards R140). -/
def HostPins.reset : HostPins := ⟨true, false, 0#64⟩

/-- The input pins as this step samples them. -/
def State.pins (s : State) : HostPins := s.host.headD HostPins.quiet

/-- The state once this step's pins have been sampled: a word that was not accepted is not remembered
(spec 30_encoding R45). -/
def State.sampled (s : State) : State := { s with host := s.host.tail }

/-- An operation on the CORE's registers, the host's pins left alone. -/
def State.mapCore (f : CoreState Config.frameLen Config.crcWidth → CoreState Config.frameLen Config.crcWidth)
    (s : State) : State :=
  { s with toCoreState := f s.toCoreState }

end Sys2Proof.Machine
end

