-- ==== Sys2Proof/Machine/Operands.lean ====
section
/-!
DEFINITION. The operand forms: the frame index with its range check, and the two types of draw read from an answer of
the random source.
-/

namespace Sys2Proof.Machine

/-- The form shared by FGET and FFLIP: an index outside the frame raises IDX_OOB before any state is touched
(spec 40_bitframe R60); otherwise the command's action, and completion. -/
def CoreState.indexed {n w : Nat} (i : Nat) (word : CmdWord) (act : CoreState n w → CoreState n w)
    (s : CoreState n w) : CoreState n w :=
  if i < n then (act s).complete else s.faultEntry .idxOob word

/-- The draw of FRAND: an `n`-bit value (spec 40_bitframe R63), the low bits of the answer. -/
def frameOfAnswer (n a : Nat) : BitVec n := BitVec.ofNat n a

/-- The binomial coefficient (spec 00_scope R8), computed from the falling factorial. -/
def binom (n k : Nat) : Nat := n.descFactorial k / k.factorial

/-- The `a`-th combination, counted from 0 in lexicographic order, of `k` indices out of `s, …, s + m - 1`. -/
def unrankFrom : (m s k a : Nat) → Pattern
  | 0, _, _, _ => []
  | _ + 1, _, 0, _ => []
  | m + 1, s, k + 1, a =>
    if a < binom m k then s :: unrankFrom m (s + 1) k a
    else unrankFrom m (s + 1) (k + 1) (a - binom m k)

/-- The draw of one RND trial: a `k`-subset of `[0, n)` (spec 42_pattern_generator R84). The answer picks it by its
place in lexicographic order, so every subset is some answer's (log 3). -/
def subsetOfAnswer (n k a : Nat) : Pattern := unrankFrom n 0 k (a % binom n k)

end Sys2Proof.Machine
end

