-- ==== Sys2Proof/Machine/BitFrame.lean ====
section
/-!
DEFINITION. FGET, FFLIP and FRAND (spec 40_bitframe). A fault's FINFO is the accepted word, which is the encoding of
the decoded command (spec 60_exceptions R125; log 12).
-/

namespace Sys2Proof.Machine

/-- FGET: GETQ takes the frame bit (spec 40_bitframe R61). -/
def CoreState.fget {n w : Nat} (i : Nat) (word : CmdWord) (s : CoreState n w) : CoreState n w :=
  s.indexed i word fun c => { c with getq := frameRead c.frame i }

/-- FFLIP: the frame bit is toggled (spec 40_bitframe R62). -/
def CoreState.fflip {n w : Nat} (i : Nat) (word : CmdWord) (s : CoreState n w) : CoreState n w :=
  s.indexed i word fun c => { c with frame := frameFlip c.frame i }

/-- FRAND: one draw, bit `i` of it to `FRAME[i]` (spec 40_bitframe R63). -/
def CoreState.frand {n w : Nat} (s : CoreState n w) : CoreState n w :=
  CoreState.complete { s with frame := frameOfAnswer n s.random.draw.1, random := s.random.draw.2 }

/-- The meaning of FGET. -/
def execFget (i : Nat) (s : State) : Host.Outcome State Fault Refusal :=
  .next (s.mapCore (CoreState.fget i (encode (.fget i))))

/-- The meaning of FFLIP. -/
def execFflip (i : Nat) (s : State) : Host.Outcome State Fault Refusal :=
  .next (s.mapCore (CoreState.fflip i (encode (.fflip i))))

/-- The meaning of FRAND. -/
def execFrand (s : State) : Host.Outcome State Fault Refusal :=
  .next (s.mapCore CoreState.frand)

end Sys2Proof.Machine
end

