-- ==== Sys2Proof/Machine/CrcEngine.lean ====
section
/-!
DEFINITION. The checksum algorithm, CRC and TGT (spec 41_crcengine).
-/

namespace Sys2Proof.Machine

/-- One step of the shift register (spec 41_crcengine R70): the top bit is taken before the shift, the shift drops it,
and the polynomial is added when it differs from the input bit. -/
def crcStep {w : Nat} (poly r : BitVec w) (b : Bool) : BitVec w :=
  if b ^^ r.msb then (r <<< 1) ^^^ poly else r <<< 1

/-- The register after the first `i` frame bits, in ascending index order from 0 (spec 41_crcengine R71;
20_memory R31). -/
def crcAfter {n w : Nat} (poly : BitVec w) (f : BitVec n) : Nat → BitVec w
  | 0 => 0#w
  | i + 1 => crcStep poly (crcAfter poly f i) (frameRead f i)

/-- The checksum of a frame: exactly `n` steps, no padding, no final XOR (spec 41_crcengine R71, R73). -/
def crc {n w : Nat} (poly : BitVec w) (f : BitVec n) : BitVec w := crcAfter poly f n

/-- One computation of the checksum in the shift register (spec 10_state R12). -/
def CoreState.compute {n w : Nat} (poly : BitVec w) (s : CoreState n w) : CoreState n w :=
  { s with r := crc poly s.frame }

/-- CRC: the checksum goes to CSUM (spec 41_crcengine R74). -/
def CoreState.crcCommand {n w : Nat} (poly : BitVec w) (s : CoreState n w) : CoreState n w :=
  CoreState.complete { s.compute poly with csum := (s.compute poly).r }

/-- TGT: TARGET takes CSUM (spec 41_crcengine R75). -/
def CoreState.tgtCommand {n w : Nat} (s : CoreState n w) : CoreState n w :=
  CoreState.complete { s with target := s.csum }

/-- The meaning of CRC. -/
def execCrc (s : State) : Host.Outcome State Fault Refusal :=
  .next (s.mapCore (CoreState.crcCommand Config.poly))

/-- The meaning of TGT. -/
def execTgt (s : State) : Host.Outcome State Fault Refusal :=
  .next (s.mapCore CoreState.tgtCommand)

end Sys2Proof.Machine
end

