-- ==== Sys2Proof/Machine/Flags.lean ====
section
/-!
DEFINITION. The flags and what the host sees: OVF, the STATUS view, the output ports.
-/

namespace Sys2Proof.Machine

/-- OVF after a trial has counted: set when TRIALS has its top bit set, else kept (spec 43_collision_counter R96;
10_state R17). -/
def ovfAfter (trials : Counter) (ovf : Bool) : Bool := ovf || trials.msb

/-- READY, bit 0 of STATUS (spec 10_state R18). -/
def CoreState.ready {n w : Nat} (s : CoreState n w) : Bool := s.seq == .idle

/-- HALT, bit 1 of STATUS (spec 10_state R18). -/
def CoreState.halted {n w : Nat} (s : CoreState n w) : Bool := s.seq == .halt

/-- STATUS, a view: FCODE, GETQ, OVF, HALT, READY from the top (spec 10_state R20). -/
def CoreState.status {n w : Nat} (s : CoreState n w) : BitVec 8 :=
  s.fcode ++ BitVec.ofBool s.getq ++ BitVec.ofBool s.ovf ++ BitVec.ofBool s.halted ++ BitVec.ofBool s.ready

/-- Output port `cmd_ready`, defined in every SEQ state (spec 10_state R26). -/
def CoreState.cmdReady {n w : Nat} (s : CoreState n w) : Bool := s.ready

/-- The output ports that the host may read outside a command (spec 10_state R26, R28). -/
structure ResultPorts (w : Nat) where
  status : BitVec 8
  csum : BitVec w
  target : BitVec w
  trials : Counter
  collisions : Counter
  finfo : CmdWord
  deriving DecidableEq, Repr

/-- The ports that show their registers whenever SEQ is IDLE or HALT; while BUSY the spec leaves them open
(spec 10_state R28; log 15). -/
def CoreState.resultPorts {n w : Nat} (s : CoreState n w) : Option (ResultPorts w) :=
  if s.seq = .busy then none
  else some ⟨s.status, s.csum, s.target, s.trials, s.collisions, s.finfo⟩

/-- The output ports of the CORE (spec 10_state R26), with what R28 leaves defined of them. -/
structure OutputPorts (w : Nat) where
  /-- `cmd_ready`, in every SEQ state. -/
  cmdReady : Bool
  /-- HALT and READY, bits 1:0 of the `status` port, in every SEQ state. -/
  seqBits : BitVec 2
  /-- The whole `status` port and the result ports; absent while BUSY. -/
  results : Option (ResultPorts w)
  deriving DecidableEq, Repr

/-- What the output ports show: `cmd_ready` and `status[1:0]` always, the rest outside BUSY
(spec 10_state R26, R28). -/
def CoreState.outputPorts {n w : Nat} (s : CoreState n w) : OutputPorts w :=
  ⟨s.cmdReady, s.status.extractLsb' 0 2, s.resultPorts⟩

end Sys2Proof.Machine
end

