-- ==== Sys2Proof/Machine/Generator.lean ====
section
/-!
DEFINITION. The error-pattern generator (spec 42_pattern_generator): the three pattern sequences as the spec lists them,
and the generator position with its first value and its successor, which is what a sweep runs on.
-/

namespace Sys2Proof.Machine

/-- A sweep's pattern sequence by its command's operands (spec 43_collision_counter R99 to R101). -/
inductive Sweep where
  | exh (k : Nat)
  | rnd (k cnt : Nat)
  | burst (len : Nat)
  deriving DecidableEq, Repr

/-- All combinations of `k` indices out of `s, …, s + m - 1`, in lexicographic order. -/
def exhFrom : (m s k : Nat) → List Pattern
  | _, _, 0 => [[]]
  | 0, _, _ + 1 => []
  | m + 1, s, k + 1 => (exhFrom m (s + 1) k).map (s :: ·) ++ exhFrom m (s + 1) (k + 1)

/-- `exh(k)`: every combination of `k` distinct indices, in lexicographic order (spec 42_pattern_generator R81). -/
def exhPatterns (n k : Nat) : List Pattern := exhFrom n 0 k

/-- One draw of RND (spec 42_pattern_generator R84). -/
def drawPattern (n k : Nat) (src : RandomSource) : Pattern × RandomSource :=
  (subsetOfAnswer n k src.draw.1, src.draw.2)

/-- `cnt` draws one after another (spec 42_pattern_generator R85). -/
def drawPatterns (n k : Nat) : Nat → RandomSource → List Pattern × RandomSource
  | 0, src => ([], src)
  | cnt + 1, src =>
    let d := drawPattern n k src
    let rest := drawPatterns n k cnt d.2
    (d.1 :: rest.1, rest.2)

/-- `burstpat(L, s, m)`: both end bits, and the interior positions the mask names
(spec 42_pattern_generator R86). -/
def burstPattern (len s m : Nat) : Pattern :=
  s :: ((List.range (len - 2)).filter fun j => m.testBit j).map (fun j => s + 1 + j) ++ [s + len - 1]

/-- The number of interior masks of a burst (spec 42_pattern_generator R87). -/
def burstMasks (len : Nat) : Nat := 2 ^ (len - 2)

/-- `burst(L)`: start offsets ascending, and for each the masks ascending (spec 42_pattern_generator R87); empty when
the length exceeds the frame (R89). -/
def burstPatterns (n len : Nat) : List Pattern :=
  if 2 ≤ len ∧ len ≤ n then
    (List.range (n - len + 1)).flatMap fun s => (List.range (burstMasks len)).map (burstPattern len s)
  else []

/-- The sequence a sweep evaluates, with the random source after the draws it takes (spec 42_pattern_generator R81,
R85, R87, R89). -/
def Sweep.patterns (n : Nat) (sw : Sweep) (src : RandomSource) : List Pattern × RandomSource :=
  match sw with
  | .exh k => (exhPatterns n k, src)
  | .rnd k cnt => if k ≤ n then drawPatterns n k cnt src else ([], src)
  | .burst len => (burstPatterns n len, src)

/-- How many patterns a sweep evaluates (spec 42_pattern_generator R83, R85, R88, R89). -/
def Sweep.size (n : Nat) : Sweep → Nat
  | .exh k => binom n k
  | .rnd k cnt => if k ≤ n then cnt else 0
  | .burst len => if 2 ≤ len ∧ len ≤ n then (n - len + 1) * burstMasks len else 0

/-- The successor of a combination (spec 42_pattern_generator R82): the last index that can still rise does, and those
after it follow on. -/
def nextComb (n : Nat) : List Nat → Option (List Nat)
  | [] => none
  | a :: rest =>
    match nextComb n rest with
    | some rest' => some (a :: rest')
    | none =>
      if a + 1 + rest.length < n then some ((a + 1) :: List.range' (a + 2) rest.length) else none

/-- GEN once a further draw of RND has been taken, with the trials still to run. -/
def Gen.ofDraw (k rem : Nat) (d : Pattern × RandomSource) : Gen × RandomSource := (.rnd k rem d.1, d.2)

/-- The first generator position of a sweep, absent when its sequence is empty (spec 42_pattern_generator R82, R85,
R87, R89). -/
def Sweep.first (n : Nat) (sw : Sweep) (src : RandomSource) : Gen × RandomSource :=
  match sw with
  | .exh k => (if k ≤ n then .exh (List.range k) else .none, src)
  | .rnd k cnt => if k ≤ n ∧ cnt ≠ 0 then Gen.ofDraw k cnt (drawPattern n k src) else (.none, src)
  | .burst len => (if 2 ≤ len ∧ len ≤ n then .burst len 0 0 else .none, src)

/-- The generator position after the present one, absent at the end of the sequence (spec 42_pattern_generator R82,
R85, R87). -/
def genNext (n : Nat) (g : Gen) (src : RandomSource) : Gen × RandomSource :=
  match g with
  | .none => (.none, src)
  | .exh c =>
    match nextComb n c with
    | some c' => (.exh c', src)
    | none => (.none, src)
  | .rnd k rem _ => if rem ≤ 1 then (.none, src) else Gen.ofDraw k (rem - 1) (drawPattern n k src)
  | .burst len s m =>
    if m < burstMasks len - 1 then (.burst len s (m + 1), src)
    else if s < n - len then (.burst len (s + 1) 0, src)
    else (.none, src)

/-- The pattern a generator position stands for (spec 10_state R23). -/
def Gen.pattern : Gen → Pattern
  | .none => []
  | .exh c => c
  | .rnd _ _ p => p
  | .burst len s m => burstPattern len s m

end Sys2Proof.Machine
end

