-- ==== Sys2Proof/Machine/CollisionCounter.lean ====
section
/-!
DEFINITION. The mutator, the trial, the sweep, and EXH, RND, BURST (spec 43_collision_counter).
-/

namespace Sys2Proof.Machine

/-- The mutator: flip every index of the pattern, in its order (spec 43_collision_counter R95). -/
def applyPattern {n : Nat} (f : BitVec n) (p : Pattern) : BitVec n := p.foldl frameFlip f

/-- The mutator on FRAME. -/
def CoreState.mutate {n w : Nat} (p : Pattern) (s : CoreState n w) : CoreState n w :=
  { s with frame := applyPattern s.frame p }

/-- The comparator: COLLISIONS counts when R equals TARGET (spec 43_collision_counter R96). -/
def CoreState.compare {n w : Nat} (s : CoreState n w) : CoreState n w :=
  if s.r = s.target then { s with collisions := s.collisions + 1 } else s

/-- The trial is counted, and OVF with it (spec 43_collision_counter R96). -/
def CoreState.countTrial {n w : Nat} (s : CoreState n w) : CoreState n w :=
  { s with trials := s.trials + 1, ovf := ovfAfter (s.trials + 1) s.ovf }

/-- One trial: apply, compute from zero, compare, revert, count (spec 43_collision_counter R96, R97). -/
def CoreState.trial {n w : Nat} (poly : BitVec w) (p : Pattern) (s : CoreState n w) : CoreState n w :=
  ((((s.mutate p).compute poly).compare).mutate p).countTrial

/-- The start of a sweep: the counters and OVF cleared (spec 43_collision_counter R98), GEN at its first position. -/
def CoreState.sweepStart {n w : Nat} (sw : Sweep) (s : CoreState n w) : CoreState n w :=
  { s with
    trials := 0
    collisions := 0
    ovf := false
    gen := (sw.first n s.random).1
    random := (sw.first n s.random).2 }

/-- GEN goes on to the next position. -/
def CoreState.advance {n w : Nat} (s : CoreState n w) : CoreState n w :=
  { s with gen := (genNext n s.gen s.random).1, random := (genNext n s.gen s.random).2 }

/-- The trial of the present generator position, if a sweep is in progress. -/
def CoreState.sweepTick {n w : Nat} (poly : BitVec w) (s : CoreState n w) : CoreState n w :=
  if s.gen = .none then s else (s.trial poly s.gen.pattern).advance

/-- So many trials of the sweep in progress, one after another. -/
def CoreState.runSweep {n w : Nat} (poly : BitVec w) : Nat → CoreState n w → CoreState n w
  | 0, s => s
  | k + 1, s => CoreState.runSweep poly k (s.sweepTick poly)

/-- A whole sweep: every pattern of the sequence is one trial (spec 43_collision_counter R98, R103). -/
def CoreState.sweep {n w : Nat} (poly : BitVec w) (sw : Sweep) (s : CoreState n w) : CoreState n w :=
  (s.sweepStart sw).runSweep poly (sw.size n)

/-- EXH (spec 43_collision_counter R99). -/
def CoreState.exh {n w : Nat} (poly : BitVec w) (k : Nat) (s : CoreState n w) : CoreState n w :=
  (s.sweep poly (.exh k)).complete

/-- RND (spec 43_collision_counter R100). -/
def CoreState.rnd {n w : Nat} (poly : BitVec w) (k cnt : Nat) (s : CoreState n w) : CoreState n w :=
  (s.sweep poly (.rnd k cnt)).complete

/-- BURST: a length below 2 raises ILLEGAL_ARG before the counters are cleared
(spec 43_collision_counter R101; 60_exceptions R127). -/
def CoreState.burst {n w : Nat} (poly : BitVec w) (len : Nat) (word : CmdWord) (s : CoreState n w) :
    CoreState n w :=
  if len < 2 then s.faultEntry .illegalArg word else (s.sweep poly (.burst len)).complete

/-- What a BUSY state does next: the next trial of the sweep in progress, else completion (spec 10_state R18;
44_control R112; log 7). -/
def CoreState.busyTick {n w : Nat} (poly : BitVec w) (s : CoreState n w) : CoreState n w :=
  if s.gen = .none then s.complete else s.sweepTick poly

/-- The meaning of EXH. -/
def execExh (k : Nat) (s : State) : Host.Outcome State Fault Refusal :=
  .next (s.mapCore (CoreState.exh Config.poly k))

/-- The meaning of RND. -/
def execRnd (k cnt : Nat) (s : State) : Host.Outcome State Fault Refusal :=
  .next (s.mapCore (CoreState.rnd Config.poly k cnt))

/-- The meaning of BURST. -/
def execBurst (len : Nat) (s : State) : Host.Outcome State Fault Refusal :=
  .next (s.mapCore (CoreState.burst Config.poly len (encode (.burst len))))

end Sys2Proof.Machine
end

