-- ==== Sys2Proof/Machine/Control.lean ====
section
/-!
DEFINITION. NOP (spec 44_control).
-/

namespace Sys2Proof.Machine

/-- NOP: no register changes (spec 44_control R110). -/
def CoreState.nop {n w : Nat} (s : CoreState n w) : CoreState n w := s.complete

/-- The meaning of NOP. -/
def execNop (s : State) : Host.Outcome State Fault Refusal :=
  .next (s.mapCore CoreState.nop)

end Sys2Proof.Machine
end

