-- ==== Sys2Proof/Machine/Dispatch.lean ====
section
/-!
DEFINITION. The execution of an accepted command: one arm for each command (spec 44_control R112).
-/

namespace Sys2Proof.Machine

def exec (i : Instr) (s : State) : Host.Outcome State Fault Refusal :=
  match i with
  | .nop => Sys2Proof.Machine.execNop s
  | .fget idx => Sys2Proof.Machine.execFget idx s
  | .fflip idx => Sys2Proof.Machine.execFflip idx s
  | .frand => Sys2Proof.Machine.execFrand s
  | .crc => Sys2Proof.Machine.execCrc s
  | .tgt => Sys2Proof.Machine.execTgt s
  | .exh k => Sys2Proof.Machine.execExh k s
  | .rnd k cnt => Sys2Proof.Machine.execRnd k cnt s
  | .burst len => Sys2Proof.Machine.execBurst len s

end Sys2Proof.Machine
end

