-- ==== Sys2Proof/Machine/Step.lean ====
section
/-!
DEFINITION. One step of the machine: the input pins are sampled; `rst` resets the CORE; else an IDLE CORE accepts a
presented word, decodes and executes it, a BUSY one goes on with its command, and a HALTed one does nothing.
-/

namespace Sys2Proof.Machine

/-- An accepted word: decoded, then executed, or a decode fault taken (spec 44_control R112; 30_encoding R55). -/
def runWord (word : CmdWord) (s : State) : Host.Outcome State Fault Refusal :=
  match decode word with
  | .ok i => exec i (s.mapCore CoreState.accept)
  | .error kind => .next (s.mapCore fun c => c.accept.faultEntry kind word)

/-- One step (spec 44_control R112, R113; 70_reset_and_hazards R140, R141; 60_exceptions R126). A word presented while
the CORE is not READY has no effect (30_encoding R45). `rst` is looked at first (log 13). -/
def step (s : State) : Host.Outcome State Fault Refusal :=
  if s.pins.rst then .next (s.sampled.mapCore CoreState.applyReset)
  else
    match s.seq with
    | .idle => if s.pins.cmdValid then runWord s.pins.cmdWord s.sampled else .next s.sampled
    | .busy => .next (s.sampled.mapCore (CoreState.busyTick Config.poly))
    | .halt => .next s.sampled

/-- The state with a table word presented on the pins of the next step, and the CORE READY, which is all that its
acceptance takes (spec 30_encoding R45; log 11). -/
def State.withFetchWord (s : State) (nbits w : Nat) : State :=
  { s with
    seq := .idle
    host := HostPins.present (BitVec.ofNat 64 (w % 2 ^ nbits)) :: s.host }

end Sys2Proof.Machine
end

