-- ==== Sys2Proof/Machine/Assembler.lean ====
section
/-!
DEFINITION. The text side of the command port: the assembler line (spec 30_encoding R56, R57) and the
pseudo-instructions (R58). The CORE never sees text; the host turns it into words and presents them.
-/

namespace Sys2Proof.Machine

/-- The line without its comment, which runs from `;` to the end (spec 30_encoding R56). -/
def stripComment (line : List Char) : List Char := line.takeWhile (· != ';')

/-- Blanks around a token do not count (log 17). -/
def isBlank (c : Char) : Bool := c == ' ' || c == '\t'

/-- A token without the blanks around it. -/
def trimBlanks (t : List Char) : List Char := ((t.dropWhile isBlank).reverse.dropWhile isBlank).reverse

/-- The value of a digit in a base up to 16; hexadecimal letters in either case (log 17). -/
def digitValue (base : Nat) (c : Char) : Option Nat :=
  let v :=
    if '0' ≤ c ∧ c ≤ '9' then some (c.toNat - '0'.toNat)
    else if 'a' ≤ c ∧ c ≤ 'f' then some (c.toNat - 'a'.toNat + 10)
    else if 'A' ≤ c ∧ c ≤ 'F' then some (c.toNat - 'A'.toNat + 10)
    else none
  v.filter (· < base)

/-- A string of digits read on from an accumulator. -/
def digitsValue (base : Nat) : Nat → List Char → Option Nat
  | acc, [] => some acc
  | acc, c :: rest => (digitValue base c).bind fun d => digitsValue base (acc * base + d) rest

/-- An operand: unsigned decimal, or hexadecimal after `0x` (spec 30_encoding R56). -/
def parseNumber (t : List Char) : Option Nat :=
  match t with
  | [] => none
  | '0' :: 'x' :: rest => if rest = [] then none else digitsValue 16 0 rest
  | c :: rest => digitsValue 10 0 (c :: rest)

/-- The mnemonics, in upper case (spec 30_encoding R47, R56). -/
def mnemonicTable : List (List Char × Opcode) :=
  [(['N', 'O', 'P'], .nop), (['F', 'G', 'E', 'T'], .fget), (['F', 'F', 'L', 'I', 'P'], .fflip),
   (['F', 'R', 'A', 'N', 'D'], .frand), (['C', 'R', 'C'], .crc), (['T', 'G', 'T'], .tgt),
   (['E', 'X', 'H'], .exh), (['R', 'N', 'D'], .rnd), (['B', 'U', 'R', 'S', 'T'], .burst)]

/-- The text cut at its commas. -/
def splitCommas : List Char → List (List Char)
  | [] => [[]]
  | c :: rest =>
    match splitCommas rest with
    | [] => [[c]]
    | t :: ts => if c = ',' then [] :: t :: ts else (c :: t) :: ts

/-- A line's mnemonic and operands; none where an operand is no number. -/
def lineParts (line : List Char) : Option (List Char × List Nat) :=
  let body := trimBlanks (stripComment line)
  let name := body.takeWhile fun c => !isBlank c
  let text := trimBlanks (body.dropWhile fun c => !isBlank c)
  if text = [] then some (name, [])
  else ((splitCommas text).mapM fun t => parseNumber (trimBlanks t)).map fun ops => (name, ops)

/-- The command with these operands, where its operand count is theirs and they fit their fields
(spec 30_encoding R56). -/
def Opcode.withOperands (o : Opcode) (ops : List Nat) : Option Instr :=
  let i? : Option Instr :=
    match o, ops with
    | .nop, [] => some .nop
    | .frand, [] => some .frand
    | .crc, [] => some .crc
    | .tgt, [] => some .tgt
    | .fget, [i] => some (.fget i)
    | .fflip, [i] => some (.fflip i)
    | .exh, [k] => some (.exh k)
    | .burst, [len] => some (.burst len)
    | .rnd, [k, cnt] => some (.rnd k cnt)
    | _, _ => none
  i?.filter fun i => decide i.WellFormed

/-- The command a line spells, if it spells one (spec 30_encoding R56). -/
def parseLine (line : List Char) : Option Instr :=
  (lineParts line).bind fun parts =>
    ((mnemonicTable.find? fun row => row.1 == parts.1).map Prod.snd).bind fun o =>
      Opcode.withOperands o parts.2

/-- The word a line assembles to (spec 30_encoding R57). -/
def assembleLine (line : List Char) : Option CmdWord := (parseLine line).map encode

/-- The pseudo-instructions (spec 30_encoding R58). -/
inductive Pseudo where
  | ref
  | hamming
  | odd (cnt : Nat)
  | even (cnt : Nat)
  | noise (cnt : Nat)
  | bursts
  | suite
  deriving DecidableEq, Repr

/-- The weights 7, 9, …, 61 (spec 30_encoding R58, 00_scope R6). -/
def oddWeights : List Nat := (List.range 28).map fun j => 7 + 2 * j

/-- The weights 6, 8, …, 60 (spec 30_encoding R58, 00_scope R6). -/
def evenWeights : List Nat := (List.range 28).map fun j => 6 + 2 * j

/-- The expansion of `REF` (spec 30_encoding R58). -/
def refCommands : List Instr := [.frand, .crc, .tgt]

/-- The expansion of `HAMMING` (spec 30_encoding R58). -/
def hammingCommands : List Instr := [.exh 1, .exh 2, .exh 3, .exh 4, .exh 5]

/-- The expansion of `ODD cnt` (spec 30_encoding R58). -/
def oddCommands (cnt : Nat) : List Instr := oddWeights.map fun k => .rnd k cnt

/-- The expansion of `EVEN cnt` (spec 30_encoding R58). -/
def evenCommands (cnt : Nat) : List Instr := evenWeights.map fun k => .rnd k cnt

/-- The expansion of `NOISE cnt` (spec 30_encoding R58). -/
def noiseCommands (cnt : Nat) : List Instr := [.rnd 32 cnt]

/-- The expansion of `BURSTS` (spec 30_encoding R58). -/
def burstsCommands : List Instr := (List.range 14).map fun j => .burst (2 + j)

/-- The commands a pseudo-instruction stands for, in order (spec 30_encoding R58). -/
def Pseudo.expand : Pseudo → List Instr
  | .ref => refCommands
  | .hamming => hammingCommands
  | .odd cnt => oddCommands cnt
  | .even cnt => evenCommands cnt
  | .noise cnt => noiseCommands cnt
  | .bursts => burstsCommands
  | .suite =>
    refCommands ++ hammingCommands ++ oddCommands 100000 ++ evenCommands 100000 ++ burstsCommands ++
      noiseCommands 1000000

/-- The commands a line stands for: a pseudo-instruction's expansion, or the one command it spells
(spec 30_encoding R56, R58). A trial count that does not fit CNT spells nothing. -/
def expandLine (line : List Char) : Option (List Instr) :=
  (lineParts line).bind fun parts =>
    let pseudo? : Option Pseudo :=
      match parts.1, parts.2 with
      | ['R', 'E', 'F'], [] => some .ref
      | ['H', 'A', 'M', 'M', 'I', 'N', 'G'], [] => some .hamming
      | ['O', 'D', 'D'], [cnt] => some (.odd cnt)
      | ['E', 'V', 'E', 'N'], [cnt] => some (.even cnt)
      | ['N', 'O', 'I', 'S', 'E'], [cnt] => some (.noise cnt)
      | ['B', 'U', 'R', 'S', 'T', 'S'], [] => some .bursts
      | ['S', 'U', 'I', 'T', 'E'], [] => some .suite
      | _, _ => none
    match pseudo? with
    | some p => if p.expand.all fun i => decide i.WellFormed then some p.expand else none
    | none => (parseLine line).map fun i => [i]

/-- The host presents these commands, one on each of the coming steps (spec 30_encoding R45). -/
def presentAll (is : List Instr) : List HostPins := is.map fun i => HostPins.present (encode i)

/-- The machine with these commands presented after whatever the host had to do before (log 11). -/
def State.withCommands (s : State) (is : List Instr) : State := { s with host := s.host ++ presentAll is }

end Sys2Proof.Machine
end

