-- ==== Sys2Proof/Safety.lean ====
section
/-!
DEFINITION. What claims about the CORE are stated in: the error frame, the collisions of a sequence, valid patterns,
the fault a word raises, and the invariants that every step keeps.
-/

namespace Sys2Proof.Machine

/-- The error frame of a pattern: ones exactly at its indices (spec 42_pattern_generator R80). -/
def errorFrame (n : Nat) (p : Pattern) : BitVec n := applyPattern 0#n p

/-- The pattern collides: the frame with it flipped has the target checksum (spec 43_collision_counter R98). -/
def collides {n w : Nat} (poly : BitVec w) (f : BitVec n) (target : BitVec w) (p : Pattern) : Bool :=
  crc poly (f ^^^ errorFrame n p) == target

/-- How many members of a sequence collide. -/
def collisionCount {n w : Nat} (poly : BitVec w) (f : BitVec n) (target : BitVec w) (ps : List Pattern) : Nat :=
  ps.countP (collides poly f target)

/-- A tuple of strictly increasing indices of the frame (spec 42_pattern_generator R80, R90). -/
abbrev ValidPattern (n : Nat) (p : Pattern) : Prop := p.Pairwise (· < ·) ∧ ∀ i ∈ p, i < n

/-- A generator position is in the ranges of spec 10_state R23. -/
def Gen.Valid (n : Nat) : Gen → Prop
  | .none => True
  | .exh c => ValidPattern n c
  | .rnd k rem p => k ≤ n ∧ 0 < rem ∧ p.length = k ∧ ValidPattern n p
  | .burst len s m => 2 ≤ len ∧ len ≤ n ∧ s ≤ n - len ∧ m < burstMasks len

/-- The fault a presented word raises, if it raises one: at decode, or by the command's own check
(spec 60_exceptions R128). -/
def faultOf (n : Nat) (word : CmdWord) : Option FaultKind :=
  match decode word with
  | .error kind => some kind
  | .ok (.fget i) | .ok (.fflip i) => if i < n then none else some .idxOob
  | .ok (.burst len) => if len < 2 then some .illegalArg else none
  | .ok _ => none

/-- HALT, FCODE and FINFO agree (spec 10_state R21, R22; 60_exceptions R125): without a fault both are 0, and in
HALT they are a word and the fault it raises. -/
structure CoreState.FaultsAgree {n w : Nat} (s : CoreState n w) : Prop where
  running : s.seq ≠ .halt → s.fcode = 0 ∧ s.finfo = 0
  halted : s.seq = .halt → ∃ kind, faultOf n s.finfo = some kind ∧ s.fcode = FaultKind.code kind

/-- Without OVF, TRIALS is below `2^63` and COLLISIONS is at most TRIALS (spec 10_state R16, R17). -/
def CoreState.CountersAgree {n w : Nat} (s : CoreState n w) : Prop :=
  s.ovf = false → s.trials.toNat < 2 ^ 63 ∧ s.collisions.toNat ≤ s.trials.toNat

/-- GEN exists only while a sweep executes, and then in its ranges (spec 10_state R23). -/
structure CoreState.GenAgrees {n w : Nat} (s : CoreState n w) : Prop where
  absent : s.seq ≠ .busy → s.gen = .none
  valid : s.gen.Valid n

/-- The invariants of the registers together. -/
structure CoreState.Inv {n w : Nat} (s : CoreState n w) : Prop where
  faults : s.FaultsAgree
  counters : s.CountersAgree
  gen : s.GenAgrees

/-- The CORE has not faulted. -/
def CoreState.Safe {n w : Nat} (s : CoreState n w) : Prop := s.seq ≠ .halt

/-- `k` steps with an outcome that is a next state throughout. -/
def stepsTo : Nat → State → State → Prop
  | 0, s, t => s = t
  | k + 1, s, t => ∃ u, step s = .next u ∧ stepsTo k u t

end Sys2Proof.Machine
end

