-- ==== Sys2Proof/Certificates/Slice0/Obligations.lean ====
section
/-!
DEFINITION. The statements for the provers. `s` is a state of the machine, `t` a next state; a register not named in a
`with` keeps its value. Where a statement is about every frame length, CRC width or polynomial it says so by its
arguments `n`, `w`, `poly`; the machine itself runs at 83, 15 and the opaque `Config.poly`.
-/

open Sys2Proof Sys2Proof.Machine

/-! ### Decoding and encoding -/

/-- Words written out from the spec's encodings, one of each command, and three that are none (spec
95_test_vectors section 5). -/
def Obligations.SampleWordsDecode : Prop :=
  decode 0x0000000000000000#64 = .ok .nop ∧
  decode 0x0152000000000000#64 = .ok (.fget 82) ∧
  decode 0x0207000000000000#64 = .ok (.fflip 7) ∧
  decode 0x0300000000000000#64 = .ok .frand ∧
  decode 0x0400000000000000#64 = .ok .crc ∧
  decode 0x0500000000000000#64 = .ok .tgt ∧
  decode 0x0805000000000000#64 = .ok (.exh 5) ∧
  decode 0x09200000000F4240#64 = .ok (.rnd 32 1000000) ∧
  decode 0x0A0F000000000000#64 = .ok (.burst 15) ∧
  decode 0x0600000000000000#64 = .error .illegalOp ∧
  decode 0x0153000000000001#64 = .error .illegalField ∧
  decode 0x0401000000000000#64 = .error .illegalField

/-- The decoder does what the pseudocode of spec 30_encoding R55 does, for every word. -/
def Obligations.DecoderFollowsItsPseudocode : Prop :=
  ∀ (word : CmdWord) (op arg cnt : Nat),
    op = (word >>> 56).toNat → arg = (word >>> 48).toNat % 256 → cnt = word.toNat % 2 ^ 48 →
    (op ∉ [0x00, 0x01, 0x02, 0x03, 0x04, 0x05, 0x08, 0x09, 0x0A] → decode word = .error .illegalOp) ∧
    (op ∈ [0x00, 0x03, 0x04, 0x05] ∧ (arg ≠ 0 ∨ cnt ≠ 0) → decode word = .error .illegalField) ∧
    (op ∈ [0x01, 0x02, 0x08, 0x0A] ∧ cnt ≠ 0 → decode word = .error .illegalField) ∧
    (op = 0x00 ∧ arg = 0 ∧ cnt = 0 → decode word = .ok .nop) ∧
    (op = 0x01 ∧ cnt = 0 → decode word = .ok (.fget arg)) ∧
    (op = 0x02 ∧ cnt = 0 → decode word = .ok (.fflip arg)) ∧
    (op = 0x03 ∧ arg = 0 ∧ cnt = 0 → decode word = .ok .frand) ∧
    (op = 0x04 ∧ arg = 0 ∧ cnt = 0 → decode word = .ok .crc) ∧
    (op = 0x05 ∧ arg = 0 ∧ cnt = 0 → decode word = .ok .tgt) ∧
    (op = 0x08 ∧ cnt = 0 → decode word = .ok (.exh arg)) ∧
    (op = 0x09 → decode word = .ok (.rnd arg cnt)) ∧
    (op = 0x0A ∧ cnt = 0 → decode word = .ok (.burst arg))

/-- Decoding the word of a command whose operands fit gives the command (spec 30_encoding R46, R51, R55, R57). -/
def Obligations.DecodeEncodeRoundTrip : Prop :=
  ∀ i : Instr, i.WellFormed → decode (encode i) = .ok i

/-- A word that decodes to a command is the word of that command, whose operands fit (spec 30_encoding R50, R55, R57):
no bit of a word is ignored. -/
def Obligations.EncodeDecodeRoundTrip : Prop :=
  ∀ (word : CmdWord) (i : Instr), decode word = .ok i → i.WellFormed ∧ encode i = word

/-- The nine rows' match and mask values; a word is a row's command exactly when its masked bits are the row's match
value, and no word is two rows' (spec 30_encoding R48). -/
def Obligations.OpcodeMapSelectsTheCommand : Prop :=
  (opcodeTable.map fun row => (row.opcode, row.matchBits, row.maskBits)) =
    [(.nop, 0x0000000000000000#64, 0xFFFFFFFFFFFFFFFF#64), (.fget, 0x0100000000000000#64, 0xFF00FFFFFFFFFFFF#64),
     (.fflip, 0x0200000000000000#64, 0xFF00FFFFFFFFFFFF#64), (.frand, 0x0300000000000000#64, 0xFFFFFFFFFFFFFFFF#64),
     (.crc, 0x0400000000000000#64, 0xFFFFFFFFFFFFFFFF#64), (.tgt, 0x0500000000000000#64, 0xFFFFFFFFFFFFFFFF#64),
     (.exh, 0x0800000000000000#64, 0xFF00FFFFFFFFFFFF#64), (.rnd, 0x0900000000000000#64, 0xFF00000000000000#64),
     (.burst, 0x0A00000000000000#64, 0xFF00FFFFFFFFFFFF#64)] ∧
  (∀ (word : CmdWord) (row : OpcodeRow), row ∈ opcodeTable →
    (word &&& row.maskBits = row.matchBits ↔ ∃ i, decode word = .ok i ∧ i.opcode = row.opcode)) ∧
  ∀ (word : CmdWord) (row row' : OpcodeRow), row ∈ opcodeTable → row' ∈ opcodeTable →
    word &&& row.maskBits = row.matchBits → word &&& row'.maskBits = row'.matchBits → row = row'

/-- The assembler on the spec's two examples (spec 30_encoding R57), and on lines that spell no command (R56). -/
def Obligations.AssembledLines : Prop :=
  assembleLine ['R', 'N', 'D', ' ', '3', '2', ',', ' ', '1', '0', '0', '0', '0', '0', '0'] =
    some 0x09200000000F4240#64 ∧
  assembleLine ['F', 'F', 'L', 'I', 'P', ' ', '8', '2'] = some 0x0252000000000000#64 ∧
  assembleLine ['F', 'G', 'E', 'T', ' ', '0', 'x', '5', '2', ' ', ';', 'x'] = some 0x0152000000000000#64 ∧
  assembleLine ['E', 'X', 'H', ' ', '2', '5', '6'] = none ∧
  assembleLine ['e', 'x', 'h', ' ', '5'] = none

/-! ### NOP and the frame commands -/

/-- NOP changes no register; as a presented word it takes an IDLE CORE back to IDLE; a word with its operation code and
any other bit set is no NOP (spec 44_control R110). -/
def Obligations.NopChangesNoRegister : Prop :=
  (∀ s : State, exec .nop s = .next { s with seq := .idle }) ∧
  (∀ (s : State) (rest : List HostPins), s.seq = .idle → s.host = HostPins.present 0#64 :: rest →
    step s = .next { s with host := rest }) ∧
  ∀ word : CmdWord, word >>> 56 = 0x00#64 → word ≠ 0#64 → decode word = .error .illegalField

/-- FGET (spec 40_bitframe section 2): an index of the frame, an index outside it, a CNT that is not zero. That `exec`
puts the command's encoding into FINFO is the model's reading of the accepted word (log 12), and from index 256 on,
which no word holds, it is of the model only. -/
def Obligations.FgetReadsOneBit : Prop :=
  (∀ (i : Nat) (s : State), i < 83 →
    exec (.fget i) s = .next { s with getq := s.frame.getLsbD i, seq := .idle }) ∧
  (∀ (i : Nat) (s : State), 83 ≤ i →
    exec (.fget i) s = .next { s with fcode := 1, finfo := encode (.fget i), seq := .halt }) ∧
  ∀ word : CmdWord, word >>> 56 = 0x01#64 → word.toNat % 2 ^ 48 ≠ 0 → decode word = .error .illegalField

/-- FFLIP (spec 40_bitframe section 2): the named bit toggles and no other; an index outside the frame; a CNT that is
not zero. That `exec` puts the command's encoding into FINFO is the model's reading of the accepted word (log 12), and
from index 256 on, which no word holds, it is of the model only. -/
def Obligations.FflipTogglesOneBit : Prop :=
  (∀ (i : Nat) (s : State), i < 83 → ∃ f : BitVec 83,
    exec (.fflip i) s = .next { s with frame := f, seq := .idle } ∧
    f.getLsbD i = !s.frame.getLsbD i ∧ ∀ j, j ≠ i → f.getLsbD j = s.frame.getLsbD j) ∧
  (∀ (i : Nat) (s : State), 83 ≤ i →
    exec (.fflip i) s = .next { s with fcode := 1, finfo := encode (.fflip i), seq := .halt }) ∧
  ∀ word : CmdWord, word >>> 56 = 0x02#64 → word.toNat % 2 ^ 48 ≠ 0 → decode word = .error .illegalField

/-- FRAND (spec 40_bitframe R63): it takes one draw, of which bit `i` goes to `FRAME[i]`; every frame is some draw's;
the word with anything else in its fields is no FRAND. How a number the random source answers stands for a draw is the
model's choice (log 3). -/
def Obligations.FrandLoadsOneDraw : Prop :=
  (∀ s : State, ∃ f : BitVec 83,
    exec .frand s = .next { s with frame := f, random := s.random.draw.2, seq := .idle } ∧
    ∀ i, i < 83 → f.getLsbD i = s.random.draw.1.testBit i) ∧
  (∀ (s : State) (f : BitVec 83), ∃ a : Nat, ∀ (rest : List Nat) (served : Nat),
    exec .frand { s with random := ⟨a :: rest, served⟩ } =
      .next { s with frame := f, random := ⟨rest, served + 1⟩, seq := .idle }) ∧
  ∀ word : CmdWord, word >>> 56 = 0x03#64 → word.toNat % 2 ^ 56 ≠ 0 → decode word = .error .illegalField

/-- Two flips of one index leave the frame as it was, and flips commute (spec 40_bitframe section 3, R64, which
marks "Flips of different indices commute" as its own inference). -/
def Obligations.FlipsUndoAndCommute : Prop :=
  ∀ (n : Nat) (f : BitVec n) (i j : Nat),
    frameFlip (frameFlip f i) i = f ∧ frameFlip (frameFlip f i) j = frameFlip (frameFlip f j) i

/-! ### The checksum -/

/-- One step of the shift register, bit by bit, and with the polynomial held as its `(w + 1)`-bit pattern (spec
41_crcengine section 1; R70 marks its sentence "Bit by bit" as derived from its pseudocode). -/
def Obligations.CrcStepBitByBit : Prop :=
  ∀ (w : Nat) (poly r : BitVec w) (b : Bool), 0 < w →
    (crcStep poly r b).getLsbD 0 = ((b ^^ r.getLsbD (w - 1)) && poly.getLsbD 0) ∧
    (∀ j, 1 ≤ j → j < w →
      (crcStep poly r b).getLsbD j = (r.getLsbD (j - 1) ^^ ((b ^^ r.getLsbD (w - 1)) && poly.getLsbD j))) ∧
    ∀ pattern : BitVec (w + 1), pattern.setWidth w = poly →
      crcStep poly r b =
        if b ^^ r.getLsbD (w - 1) then ((r <<< 1).setWidth (w + 1) ^^^ pattern).setWidth w else r <<< 1

/-- The checksum is the register after the frame's bits, taken one after another in ascending order from 0 (spec
41_crcengine R71; 20_memory R31). -/
def Obligations.ChecksumFoldsTheFrame : Prop :=
  ∀ (n w : Nat) (poly : BitVec w) (f : BitVec n),
    crc poly f = ((List.range n).map f.getLsbD).foldl (crcStep poly) 0#w

/-- The checksum of the zero frame is 0 for every polynomial (spec 41_crcengine R72). -/
def Obligations.ChecksumOfZeroFrame : Prop :=
  ∀ (n w : Nat) (poly : BitVec w), crc poly 0#n = 0#w

/-- The checksum is linear, so with the frame's checksum as target a pattern collides exactly when its error frame has
checksum 0 (spec 41_crcengine section 3; R76 marks it as derived from the algorithm). -/
def Obligations.ChecksumIsLinear : Prop :=
  (∀ (n w : Nat) (poly : BitVec w) (f g : BitVec n), crc poly (f ^^^ g) = crc poly f ^^^ crc poly g) ∧
  ∀ (n w : Nat) (poly : BitVec w) (f : BitVec n) (p : Pattern),
    collides poly f (crc poly f) p = true ↔ crc poly (errorFrame n p) = 0#w

/-- CRC (spec 41_crcengine section 2): CSUM takes the frame's checksum; the word with anything else in its fields is no
CRC. That R keeps the checksum after the command is the model's choice (log 9). -/
def Obligations.CrcLatchesTheChecksum : Prop :=
  (∀ s : State, exec .crc s =
    .next { s with r := crc Config.poly s.frame, csum := crc Config.poly s.frame, seq := .idle }) ∧
  (∀ s t u : State, exec .crc s = .next t → exec .crc t = .next u → u.csum = t.csum) ∧
  (∀ s : State, s.frame = 0 → ∃ t : State, exec .crc s = .next t ∧ t.csum = 0) ∧
  ∀ word : CmdWord, word >>> 56 = 0x04#64 → word.toNat % 2 ^ 56 ≠ 0 → decode word = .error .illegalField

/-- TGT (spec 41_crcengine R75): TARGET takes CSUM; the word with anything else in its fields is no TGT. -/
def Obligations.TgtCopiesTheChecksum : Prop :=
  (∀ s : State, exec .tgt s = .next { s with target := s.csum, seq := .idle }) ∧
  ∀ word : CmdWord, word >>> 56 = 0x05#64 → word.toNat % 2 ^ 56 ≠ 0 → decode word = .error .illegalField

/-- With the low polynomial bit 1 and the frame's checksum as target, the weight-1 sweep counts no collision, on a CORE
of any size (spec 41_crcengine section 3; R77 marks its sentence on `EXH 1` as derived). -/
def Obligations.SingleBitErrorsNeverCollide : Prop :=
  ∀ (n w : Nat) (poly : BitVec w) (s : CoreState n w), poly.getLsbD 0 = true → s.target = crc poly s.frame →
    (s.exh poly 1).collisions = 0

/-- With the low polynomial bit 1 and the frame's checksum as target, no burst of a length up to the CRC width
collides, on a CORE of any size (spec 95_test_vectors section 3, derived there from R70 and R76). -/
def Obligations.ShortBurstsNeverCollide : Prop :=
  ∀ (n w : Nat) (poly : BitVec w) (s : CoreState n w) (len : Nat) (word : CmdWord), poly.getLsbD 0 = true →
    s.target = crc poly s.frame → 2 ≤ len → len ≤ w → (s.burst poly len word).collisions = 0

/-! ### The pattern sequences -/

/-- `exh(k)` holds every tuple of `k` strictly increasing indices of the frame, in strictly increasing lexicographic
order, so each once, `C(n, k)` of them; one for weight 0 and for weight `n`, none above (spec 42_pattern_generator R81,
R83). -/
def Obligations.ExhListsEveryCombinationOnce : Prop :=
  (∀ (n k : Nat) (p : Pattern), p ∈ exhPatterns n k ↔ p.length = k ∧ p.Pairwise (· < ·) ∧ ∀ i ∈ p, i < n) ∧
  (∀ n k : Nat, (exhPatterns n k).Pairwise (· < ·)) ∧
  (∀ n k : Nat, (exhPatterns n k).length = n.choose k) ∧
  (∀ n : Nat, exhPatterns n 0 = [[]]) ∧
  (∀ n : Nat, exhPatterns n n = [List.range n]) ∧
  ∀ n k : Nat, n < k → exhPatterns n k = []

/-- The successor of a combination is the pseudocode's: the last index that can still rise does, each after it is one
more than the one before, and with none the sequence is finished; it starts at `0, …, k - 1` and ends with the `k`
highest indices (spec 42_pattern_generator R82). -/
def Obligations.CombinationSuccessor : Prop :=
  (∀ (n k : Nat) (src : RandomSource), 1 ≤ k → k ≤ n → (Sweep.exh k).first n src = (.exh (List.range k), src)) ∧
  (∀ (n : Nat) (c : List Nat) (j : Nat) (src : RandomSource), c.length ≤ n → j < c.length →
    c.getD j 0 < n - c.length + j →
    (∀ j', j < j' → j' < c.length → ¬ c.getD j' 0 < n - c.length + j') →
    genNext n (.exh c) src = (.exh (c.take j ++ List.range' (c.getD j 0 + 1) (c.length - j)), src)) ∧
  (∀ (n : Nat) (c : List Nat) (src : RandomSource), c.length ≤ n →
    (∀ j, j < c.length → ¬ c.getD j 0 < n - c.length + j) → genNext n (.exh c) src = (.none, src)) ∧
  ∀ n k : Nat, 1 ≤ k → k ≤ n → (exhPatterns n k).getLast? = some (List.range' (n - k) k)

/-- Every answer of the random source gives a subset of `k` distinct indices of the frame, and every such subset is some
answer's; so every pattern that RND draws is one, and every list of such subsets is what RND draws for some answers, one
answer for each, the ones after them left (spec 42_pattern_generator R84, R85; the reading of an answer as a subset is
the model's, log 3). -/
def Obligations.DrawsAreExactlyTheSubsets : Prop :=
  ∀ n k : Nat, k ≤ n →
    (∀ a : Nat, (subsetOfAnswer n k a).length = k ∧ ValidPattern n (subsetOfAnswer n k a)) ∧
    (∀ p : Pattern, p.length = k → ValidPattern n p → ∃ a : Nat, subsetOfAnswer n k a = p) ∧
    (∀ (cnt : Nat) (src : RandomSource), ∀ p ∈ (drawPatterns n k cnt src).1, p.length = k ∧ ValidPattern n p) ∧
    ∀ (ps : List Pattern) (rest : List Nat) (served : Nat), (∀ p ∈ ps, p.length = k ∧ ValidPattern n p) →
      ∃ answers : List Nat, answers.length = ps.length ∧
        drawPatterns n k ps.length ⟨answers ++ rest, served⟩ = (ps, ⟨rest, served + ps.length⟩)

/-- A burst pattern flips both end bits and exactly the interior positions that its mask names, in ascending order; its
weight is 2 plus the ones of the mask (spec 42_pattern_generator R86). -/
def Obligations.BurstPatternIndices : Prop :=
  ∀ len start mask : Nat, 2 ≤ len → mask < 2 ^ (len - 2) →
    (∀ i, i ∈ burstPattern len start mask ↔
      i = start ∨ i = start + len - 1 ∨ ∃ j, j < len - 2 ∧ mask.testBit j = true ∧ i = start + 1 + j) ∧
    (burstPattern len start mask).Pairwise (· < ·) ∧
    (burstPattern len start mask).length = 2 + ((List.range (len - 2)).filter fun j => mask.testBit j).length

/-- `burst(L)` holds the pattern of every start offset and every mask, each pattern once, `(n - L + 1) * 2^(L-2)` of
them, starts ascending and for each the masks ascending, and none when `L` exceeds the frame; GEN starts at offset 0 and
mask 0, and its successor takes the next mask, else the next offset with mask 0, else the sequence is finished (spec
42_pattern_generator section 4, R87 to R89; R87 and R88 mark the distinctness and the counts as derived). -/
def Obligations.BurstListsEveryPairOnce : Prop :=
  (∀ (n len : Nat) (p : Pattern), 2 ≤ len → len ≤ n →
    (p ∈ burstPatterns n len ↔
      ∃ start mask, start ≤ n - len ∧ mask < 2 ^ (len - 2) ∧ p = burstPattern len start mask)) ∧
  (∀ n len : Nat, (burstPatterns n len).Nodup) ∧
  (∀ n len : Nat, 2 ≤ len → len ≤ n → (burstPatterns n len).length = (n - len + 1) * 2 ^ (len - 2)) ∧
  (∀ n len : Nat, n < len → burstPatterns n len = []) ∧
  (∀ n len start mask : Nat, 2 ≤ len → len ≤ n → start ≤ n - len → mask < 2 ^ (len - 2) →
    (burstPatterns n len)[start * 2 ^ (len - 2) + mask]? = some (burstPattern len start mask)) ∧
  (∀ (n len : Nat) (src : RandomSource), 2 ≤ len → len ≤ n →
    (Sweep.burst len).first n src = (.burst len 0 0, src)) ∧
  ∀ (n len start mask : Nat) (src : RandomSource), 2 ≤ len → len ≤ n →
    genNext n (.burst len start mask) src =
      if mask < 2 ^ (len - 2) - 1 then (.burst len start (mask + 1), src)
      else if start < n - len then (.burst len (start + 1) 0, src)
      else (.none, src)

/-- Every pattern of every sweep is a set of distinct indices of the frame (spec 42_pattern_generator R90). -/
def Obligations.SweepsStayInsideTheFrame : Prop :=
  ∀ (n : Nat) (sw : Sweep) (src : RandomSource), ∀ p ∈ (sw.patterns n src).1, p.Nodup ∧ ∀ i ∈ p, i < n

/-! ### The sweeps -/

/-- EXH (spec 43_collision_counter R99, R98; 42_pattern_generator R83; R98 marks its closed form, which the COLLISIONS
clause is, as derived from R96 and R97): one trial for each of the `C(83, k)` patterns, every colliding one counted,
OVF at `2^63`; R and GEN are working state, and nothing else changes; weight 0 has one trial, a weight above 83 none;
a CNT that is not zero is a decode fault. -/
def Obligations.ExhSweepResult : Prop :=
  (∀ (k : Nat) (s : State), ∃ (r : BitVec 15) (g : Gen), exec (.exh k) s = .next { s with
    r := r
    gen := g
    trials := BitVec.ofNat 64 (Nat.choose 83 k)
    collisions := BitVec.ofNat 64 (collisionCount Config.poly s.frame s.target (exhPatterns 83 k))
    ovf := decide (2 ^ 63 ≤ Nat.choose 83 k)
    seq := .idle }) ∧
  (∀ s : State, ∃ t : State, exec (.exh 0) s = .next t ∧ t.trials = 1 ∧
    t.collisions = if s.target = crc Config.poly s.frame then 1 else 0) ∧
  (∀ (k : Nat) (s : State), 83 < k → ∃ t : State, exec (.exh k) s = .next t ∧ t.trials = 0 ∧ t.collisions = 0) ∧
  ∀ word : CmdWord, word >>> 56 = 0x08#64 → word.toNat % 2 ^ 48 ≠ 0 → decode word = .error .illegalField

/-- RND (spec 43_collision_counter R100, R98; 42_pattern_generator R85; R98 marks its closed form, which the
COLLISIONS clause is, as derived from R96 and R97): with `k` at most 83, `cnt` draws, each one trial, OVF left 0;
above, no draw and no trial; every word with its operation code is legal. How an answer stands for a subset is the
model's choice (log 3). -/
def Obligations.RndSweepResult : Prop :=
  (∀ (k cnt : Nat) (s : State), k ≤ 83 → cnt < 2 ^ 48 → ∃ (r : BitVec 15) (g : Gen), exec (.rnd k cnt) s =
    .next { s with
    r := r
    gen := g
    trials := BitVec.ofNat 64 cnt
    collisions :=
      BitVec.ofNat 64 (collisionCount Config.poly s.frame s.target (drawPatterns 83 k cnt s.random).1)
    ovf := false
    random := (drawPatterns 83 k cnt s.random).2
    seq := .idle }) ∧
  (∀ (k cnt : Nat) (s : State), (drawPatterns 83 k cnt s.random).1.length = cnt ∧
    (drawPatterns 83 k cnt s.random).2 = ⟨s.random.answers.drop cnt, s.random.served + cnt⟩) ∧
  (∀ (k cnt : Nat) (s : State), 83 < k → ∃ g : Gen, exec (.rnd k cnt) s = .next { s with
    trials := 0, collisions := 0, ovf := false, gen := g, seq := .idle }) ∧
  ∀ word : CmdWord, word >>> 56 = 0x09#64 → ∃ k cnt, decode word = .ok (.rnd k cnt)

/-- BURST (spec 43_collision_counter sections 2 and 3; 42_pattern_generator section 4; R98 marks its closed form,
which the COLLISIONS clause is, as derived from R96 and R97): a length below 2 raises ILLEGAL_ARG and leaves the
counters; from 2 to 83 one trial for each start and mask; above 83 none; a CNT that is not zero is a decode fault.
That `exec` puts the command's encoding into FINFO is the model's reading of the accepted word (log 12). -/
def Obligations.BurstSweepResult : Prop :=
  (∀ (len : Nat) (s : State), len < 2 →
    exec (.burst len) s = .next { s with fcode := 4, finfo := encode (.burst len), seq := .halt }) ∧
  (∀ (len : Nat) (s : State), 2 ≤ len → len ≤ 83 → ∃ (r : BitVec 15) (g : Gen), exec (.burst len) s = .next { s with
    r := r
    gen := g
    trials := BitVec.ofNat 64 ((83 - len + 1) * 2 ^ (len - 2))
    collisions := BitVec.ofNat 64 (collisionCount Config.poly s.frame s.target (burstPatterns 83 len))
    ovf := decide (2 ^ 63 ≤ (83 - len + 1) * 2 ^ (len - 2))
    seq := .idle }) ∧
  (∀ (len : Nat) (s : State), 83 < len → ∃ g : Gen, exec (.burst len) s = .next { s with
    trials := 0, collisions := 0, ovf := false, gen := g, seq := .idle }) ∧
  ∀ word : CmdWord, word >>> 56 = 0x0A#64 → word.toNat % 2 ^ 48 ≠ 0 → decode word = .error .illegalField

/-- A weight or length above the frame's has the empty sequence and takes no draw, so the sweep reports zero trials,
zero collisions, no OVF and no fault (spec 42_pattern_generator R89). -/
def Obligations.DegenerateSweepsReportZero : Prop :=
  (∀ (n a cnt : Nat) (sw : Sweep) (src : RandomSource), n < a → sw = .exh a ∨ sw = .rnd a cnt ∨ sw = .burst a →
    sw.patterns n src = ([], src)) ∧
  ∀ (a cnt : Nat) (s : State) (i : Instr), 83 < a → i = .exh a ∨ i = .rnd a cnt ∨ i = .burst a →
    ∃ t : State, exec i s = .next t ∧ t.trials = 0 ∧ t.collisions = 0 ∧ t.ovf = false ∧ t.seq = .idle ∧
      t.fcode = s.fcode ∧ t.finfo = s.finfo ∧ t.random = s.random

/-- After a trial of any pattern, and after any sweep, the frame is bit-identical to the one before it; flipping a
pattern's indices twice restores any frame (spec 43_collision_counter section 1, 20_memory section 5; R97 marks its
sentence "After `trial(P)`, FRAME is bit-identical" as derived). -/
def Obligations.TrialsRestoreTheFrame : Prop :=
  (∀ (n : Nat) (f : BitVec n) (p : Pattern), applyPattern (applyPattern f p) p = f) ∧
  (∀ (n w : Nat) (poly : BitVec w) (p : Pattern) (s : CoreState n w), (s.trial poly p).frame = s.frame) ∧
  ∀ (i : Instr) (s t : State), i.opcode ∈ [.exh, .rnd, .burst] → exec i s = .next t → t.frame = s.frame

/-- The mutator and one trial, on a CORE of any size: a pattern's error frame has ones exactly at its indices, and
applying a pattern toggles exactly the bits it names (spec 42_pattern_generator R80, 43_collision_counter R95);
COLLISIONS counts when the frame with the pattern's error frame added has the target checksum, TRIALS always counts,
OVF is set with bit 63 of TRIALS; only R changes besides (spec 43_collision_counter R96). -/
def Obligations.TrialCountsOnePattern : Prop :=
  (∀ (n : Nat) (f : BitVec n) (p : Pattern) (j : Nat), p.Nodup → j < n →
    (errorFrame n p).getLsbD j = decide (j ∈ p) ∧
    (applyPattern f p).getLsbD j = (f.getLsbD j ^^ decide (j ∈ p))) ∧
  ∀ (n w : Nat) (poly : BitVec w) (p : Pattern) (s : CoreState n w), s.trial poly p = { s with
    r := crc poly (s.frame ^^^ errorFrame n p)
    collisions := if crc poly (s.frame ^^^ errorFrame n p) = s.target then s.collisions + 1 else s.collisions
    trials := s.trials + 1
    ovf := s.ovf || (s.trials + 1).getLsbD 63 }

/-- After CRC and TGT, EXH 0 counts one trial and one collision; so does RND 0 for each of its draws (spec
43_collision_counter sections 3 and 4; R104 marks its sentence on `EXH 0` as derived). -/
def Obligations.EmptyPatternAlwaysCollides : Prop :=
  ∀ s : State, ∃ a b c : State, exec .crc s = .next a ∧ exec .tgt a = .next b ∧ exec (.exh 0) b = .next c ∧
    c.trials = 1 ∧ c.collisions = 1 ∧
    ∀ cnt, ∃ d : State, exec (.rnd 0 cnt) b = .next d ∧ d.trials = BitVec.ofNat 64 cnt ∧
      d.collisions = BitVec.ofNat 64 cnt

/-- A pattern collides exactly when its error frame's checksum is the target's difference from the frame's checksum,
and a sweep counts the members for which it is; so with the frame's checksum as target it counts the members whose
error frame has checksum 0 (spec 43_collision_counter section 4; R102 marks it as derived). -/
def Obligations.CollisionCriterion : Prop :=
  (∀ (n w : Nat) (poly : BitVec w) (f : BitVec n) (target : BitVec w) (p : Pattern),
    collides poly f target p = true ↔ crc poly (errorFrame n p) = target ^^^ crc poly f) ∧
  (∀ (n w : Nat) (poly : BitVec w) (sw : Sweep) (s : CoreState n w), (s.sweep poly sw).collisions =
    BitVec.ofNat 64
      ((sw.patterns n s.random).1.countP fun p => crc poly (errorFrame n p) == s.target ^^^ crc poly s.frame)) ∧
  ∀ (n w : Nat) (poly : BitVec w) (sw : Sweep) (s : CoreState n w), s.target = crc poly s.frame →
    (s.sweep poly sw).collisions =
      BitVec.ofNat 64 ((sw.patterns n s.random).1.countP fun p => crc poly (errorFrame n p) == 0#w)

/-- With the frame's checksum as target, what EXH and BURST count does not depend on the frame (spec
43_collision_counter R102; 70_reset_and_hazards R148). -/
def Obligations.CountsDoNotDependOnTheReference : Prop :=
  ∀ (s s' t t' : State) (i : Instr) (k : Nat), s.target = crc Config.poly s.frame →
    s'.target = crc Config.poly s'.frame → i = .exh k ∨ i = .burst k ∧ 2 ≤ k →
    exec i s = .next t → exec i s' = .next t' →
    t.trials = t'.trials ∧ t.collisions = t'.collisions ∧ t.ovf = t'.ovf

/-- A whole sweep is its trials one at a time: a BUSY CORE with its counters cleared and GEN at the first position of
a sweep reaches, by that many steps and one to complete, the state in which the command's one step ends; a weight or
length above 83 has no position, and the one step completes (spec 44_control R112, 10_state R23; that a BUSY state
steps by trials is the model's reading, log 7). -/
def Obligations.TrialStepsMakeTheSweep : Prop :=
  ∀ s t : State, s.host = [] → s.seq = .busy →
    (∀ k, exec (.exh k) s = .next t →
      stepsTo (Nat.choose 83 k + 1) (s.mapCore (CoreState.sweepStart (.exh k))) t) ∧
    (∀ k cnt, k ≤ 83 → exec (.rnd k cnt) s = .next t →
      stepsTo (cnt + 1) (s.mapCore (CoreState.sweepStart (.rnd k cnt))) t) ∧
    (∀ len, 2 ≤ len → len ≤ 83 → exec (.burst len) s = .next t →
      stepsTo ((83 - len + 1) * 2 ^ (len - 2) + 1) (s.mapCore (CoreState.sweepStart (.burst len))) t) ∧
    (∀ k cnt, 83 < k → exec (.rnd k cnt) s = .next t →
      stepsTo 1 (s.mapCore (CoreState.sweepStart (.rnd k cnt))) t) ∧
    ∀ len, 83 < len → exec (.burst len) s = .next t →
      stepsTo 1 (s.mapCore (CoreState.sweepStart (.burst len))) t

/-! ### Whole-machine rules -/

/-- Each register is written by the commands the spec names for it and by no other: FRAME by FFLIP and FRAND (a sweep
restores it), R by CRC and the sweeps, CSUM by CRC, TARGET by TGT, the counters and OVF by the sweeps, GETQ by FGET,
the fault registers by a fault, and a draw is taken by FRAND and RND alone (spec 10_state R10 to R17, R21 to R24;
20_memory R43; 44_control R112). What GEN and R hold between commands is the model's choice (logs 8 and 9). -/
def Obligations.OnlyTheNamedCommandsWrite : Prop :=
  ∀ (i : Instr) (s t : State), exec i s = .next t →
    ((∀ j, i ≠ .fflip j) → i ≠ .frand → t.frame = s.frame) ∧
    (i.opcode ∉ [.crc, .exh, .rnd, .burst] → t.r = s.r) ∧
    (i ≠ .crc → t.csum = s.csum) ∧
    (i ≠ .tgt → t.target = s.target) ∧
    (i.opcode ∉ [.exh, .rnd, .burst] →
      t.trials = s.trials ∧ t.collisions = s.collisions ∧ t.ovf = s.ovf ∧ t.gen = s.gen) ∧
    ((∀ j, i ≠ .fget j) → t.getq = s.getq) ∧
    (t.seq ≠ .halt → t.fcode = s.fcode ∧ t.finfo = s.finfo) ∧
    (i ≠ .frand → (∀ k cnt, i ≠ .rnd k cnt) → t.random = s.random) ∧
    t.host = s.host

/-- A step at an IDLE CORE with a word presented is the execution of the decoded command, on the state with the word
taken from the pins and SEQ at BUSY; with no word presented and no `rst` it keeps every register (spec 44_control R112,
R113; 30_encoding R45; 60_exceptions R136). -/
def Obligations.StepRunsTheDecodedCommand : Prop :=
  (∀ (s : State) (word : CmdWord) (rest : List HostPins) (i : Instr), s.seq = .idle →
    s.host = HostPins.present word :: rest → decode word = .ok i →
    step s = exec i { s with host := rest, seq := .busy }) ∧
  ∀ s : State, s.seq = .idle → s.pins.rst = false → s.pins.cmdValid = false →
    step s = .next { s with host := s.host.tail }

/-- A step at an IDLE CORE with a word presented either faults or completes: it faults exactly when the word raises a
fault, first ILLEGAL_OP, then ILLEGAL_FIELD, then the command's own check, and then only FCODE, FINFO (the word) and SEQ
change; otherwise it ends IDLE with the fault registers as they were (spec 60_exceptions R125, R128). -/
def Obligations.FaultsArePrecise : Prop :=
  ∀ (s : State) (word : CmdWord) (rest : List HostPins), s.seq = .idle →
    s.host = HostPins.present word :: rest →
    (∀ kind, faultOf 83 word = some kind →
      step s = .next { s with host := rest, fcode := FaultKind.code kind, finfo := word, seq := .halt }) ∧
    (faultOf 83 word = none →
      ∃ t : State, step s = .next t ∧ t.seq = .idle ∧ t.fcode = s.fcode ∧ t.finfo = s.finfo ∧ t.host = rest)

/-- Which words fault, by their fields, and in which order the faults are looked for (spec 60_exceptions R128, R121). -/
def Obligations.FaultPriority : Prop :=
  ∀ (word : CmdWord) (op arg cnt : Nat),
    op = (word >>> 56).toNat → arg = (word >>> 48).toNat % 256 → cnt = word.toNat % 2 ^ 48 →
    faultOf 83 word =
      if op ∉ [0x00, 0x01, 0x02, 0x03, 0x04, 0x05, 0x08, 0x09, 0x0A] then some .illegalOp
      else if op ∈ [0x00, 0x03, 0x04, 0x05] ∧ arg ≠ 0 ∨ op ≠ 0x09 ∧ cnt ≠ 0 then some .illegalField
      else if op ∈ [0x01, 0x02] ∧ 83 ≤ arg then some .idxOob
      else if op = 0x0A ∧ arg < 2 then some .illegalArg
      else none

/-- In HALT nothing but `rst` changes any register, whatever is presented; the CORE is not READY and its result ports
stay readable; `rst` clears FCODE and FINFO and makes the CORE READY (spec 60_exceptions R126). -/
def Obligations.HaltIsLeftByResetAlone : Prop :=
  (∀ s : State, s.seq = .halt → s.cmdReady = false ∧
    s.resultPorts = some ⟨s.status, s.csum, s.target, s.trials, s.collisions, s.finfo⟩) ∧
  (∀ s : State, s.seq = .halt → s.pins.rst = false → step s = .next { s with host := s.host.tail }) ∧
  ∀ s : State, s.seq = .halt → s.pins.rst = true →
    ∃ t : State, step s = .next t ∧ t.seq = .idle ∧ t.cmdReady = true ∧ t.fcode = 0 ∧ t.finfo = 0

/-- A word presented while the CORE is not READY has no effect and is not remembered (spec 30_encoding R45). -/
def Obligations.UnreadyCoreIgnoresWords : Prop :=
  ∀ (s : State) (word : CmdWord) (rest : List HostPins), s.seq ≠ .idle →
    step { s with host := HostPins.present word :: rest } = step { s with host := HostPins.quiet :: rest }

/-- `rst` takes every register but GEN, which is unspecified, to its reset value from any state (spec
70_reset_and_hazards section 1). That it does so with a word presented in the same sample, which is then dropped, is the
model's reading (log 13). -/
def Obligations.ResetFromAnyState : Prop :=
  ∀ s : State, s.pins.rst = true → ∃ (g : Gen) (src : RandomSource),
    step s = .next { State.reset with host := s.host.tail, gen := g, random := src }

/-- The reset state (spec 10_state section 9, 70_reset_and_hazards section 1; R14 marks its sentence "At reset
`TARGET == crc(FRAME)` holds" as derived). -/
def Obligations.ResetValues : Prop :=
  State.reset.frame = 0 ∧ State.reset.r = 0 ∧ State.reset.csum = 0 ∧ State.reset.target = 0 ∧
  State.reset.trials = 0 ∧ State.reset.collisions = 0 ∧ State.reset.getq = false ∧ State.reset.ovf = false ∧
  State.reset.seq = .idle ∧ State.reset.fcode = 0 ∧ State.reset.finfo = 0 ∧ State.reset.status = 0x01#8 ∧
  State.reset.target = crc Config.poly State.reset.frame

/-- STATUS bit by bit, its two low bits never both 1, and its reset value (spec 10_state R20, R18); what the output
ports show: `cmd_ready` and `status[1:0]` in every SEQ state, each other port its register outside BUSY (R26, R28;
that the others are absent while BUSY is the model's choice, log 15). -/
def Obligations.StatusBits : Prop :=
  State.reset.status = 0x01#8 ∧
  ∀ (n w : Nat) (s : CoreState n w),
    s.status.getLsbD 0 = decide (s.seq = .idle) ∧ s.status.getLsbD 1 = decide (s.seq = .halt) ∧
    s.status.getLsbD 2 = s.ovf ∧ s.status.getLsbD 3 = s.getq ∧ s.status.extractLsb' 4 4 = s.fcode ∧
    s.cmdReady = s.status.getLsbD 0 ∧ (s.status.getLsbD 0 && s.status.getLsbD 1) = false ∧
    (s.seq = .idle →
      s.outputPorts = ⟨true, 0b01#2, some ⟨s.status, s.csum, s.target, s.trials, s.collisions, s.finfo⟩⟩) ∧
    (s.seq = .busy → s.outputPorts = ⟨false, 0b00#2, none⟩) ∧
    (s.seq = .halt →
      s.outputPorts = ⟨false, 0b10#2, some ⟨s.status, s.csum, s.target, s.trials, s.collisions, s.finfo⟩⟩)

/-- The values of STATUS in HALT: `c * 16 + 2`, 4 more with OVF, 8 more with GETQ (spec 95_test_vectors section 5),
for the state a fault with code `c` leaves. -/
def Obligations.StatusAfterAFault : Prop :=
  ∀ (n w : Nat) (s : CoreState n w) (kind : FaultKind) (word : CmdWord),
    (s.faultEntry kind word).status.toNat =
      (FaultKind.code kind).toNat * 16 + 2 + (if s.ovf then 4 else 0) + if s.getq then 8 else 0

/-- The host's boot sequence FRAND, CRC, TGT leaves the checksum of the drawn frame as the target, and the counters
alone (spec 70_reset_and_hazards R143). -/
def Obligations.BootKeepsTheReferenceChecksum : Prop :=
  ∀ s : State, ∃ a b c : State, exec .frand s = .next a ∧ exec .crc a = .next b ∧ exec .tgt b = .next c ∧
    c.frame = a.frame ∧ c.csum = crc Config.poly a.frame ∧ c.target = crc Config.poly c.frame ∧
    c.trials = s.trials ∧ c.collisions = s.collisions

/-- Every step ends in a next state, and one that starts outside a command ends outside one (spec 44_control R111, R112;
10_state R28). That FRAND and RND always complete rests on a random source that always answers, the assumption of
70_reset_and_hazards R152 (log 4); that a BUSY state steps by trials is the model's reading (log 7). -/
def Obligations.EveryStepCompletes : Prop :=
  (∀ s : State, ∃ t : State, step s = .next t) ∧
  ∀ s t : State, s.seq ≠ .busy → step s = .next t → t.seq ≠ .busy

/-! ### Invariants -/

/-- The reset state meets the invariants (spec 10_state R29; that GEN is absent there is the model's choice, log 8). -/
def Obligations.ResetMeetsTheInvariants : Prop := State.reset.toCoreState.Inv

/-- Every step keeps HALT, FCODE and FINFO in agreement: 0 without a fault, and in HALT a word and the code of the fault
it raises (spec 10_state R21, R22; 60_exceptions R121, R125). -/
def Obligations.StepKeepsFaultsAgreeing : Prop :=
  ∀ s t : State, s.FaultsAgree → step s = .next t → t.FaultsAgree

/-- Every step keeps: without OVF, TRIALS is below `2^63` and COLLISIONS at most TRIALS (spec 10_state R16, R17). -/
def Obligations.StepKeepsCountersAgreeing : Prop :=
  ∀ s t : State, s.CountersAgree → step s = .next t → t.CountersAgree

/-- Every step keeps GEN absent outside a sweep and in its ranges within one, so that no trial, in whatever state, flips
an index outside the frame (spec 10_state R23; 42_pattern_generator R90). -/
def Obligations.StepKeepsTheGeneratorInRange : Prop :=
  (∀ s t : State, s.GenAgrees → step s = .next t → t.GenAgrees) ∧
  ∀ s : State, s.GenAgrees → ∀ i ∈ s.gen.pattern, i < 83
end

