-- ==== Sys2Proof/Laws/State.lean ====
section
/-!
SUPPORT. One lemma for each field of each update of the registers, so that no later proof unfolds a record update.
-/

namespace Sys2Proof.Machine

variable {n w : Nat}

/-! ### Acceptance -/


@[simp] theorem CoreState.accept_frame (s : CoreState n w) :
    (s.accept).frame = s.frame := rfl

@[simp] theorem CoreState.accept_r (s : CoreState n w) :
    (s.accept).r = s.r := rfl

@[simp] theorem CoreState.accept_csum (s : CoreState n w) :
    (s.accept).csum = s.csum := rfl

@[simp] theorem CoreState.accept_target (s : CoreState n w) :
    (s.accept).target = s.target := rfl

@[simp] theorem CoreState.accept_trials (s : CoreState n w) :
    (s.accept).trials = s.trials := rfl

@[simp] theorem CoreState.accept_collisions (s : CoreState n w) :
    (s.accept).collisions = s.collisions := rfl

@[simp] theorem CoreState.accept_getq (s : CoreState n w) :
    (s.accept).getq = s.getq := rfl

@[simp] theorem CoreState.accept_ovf (s : CoreState n w) :
    (s.accept).ovf = s.ovf := rfl

@[simp] theorem CoreState.accept_seq (s : CoreState n w) :
    (s.accept).seq = .busy := rfl

@[simp] theorem CoreState.accept_fcode (s : CoreState n w) :
    (s.accept).fcode = s.fcode := rfl

@[simp] theorem CoreState.accept_finfo (s : CoreState n w) :
    (s.accept).finfo = s.finfo := rfl

@[simp] theorem CoreState.accept_gen (s : CoreState n w) :
    (s.accept).gen = s.gen := rfl

@[simp] theorem CoreState.accept_random (s : CoreState n w) :
    (s.accept).random = s.random := rfl
/-! ### Completion -/


@[simp] theorem CoreState.complete_frame (s : CoreState n w) :
    (s.complete).frame = s.frame := rfl

@[simp] theorem CoreState.complete_r (s : CoreState n w) :
    (s.complete).r = s.r := rfl

@[simp] theorem CoreState.complete_csum (s : CoreState n w) :
    (s.complete).csum = s.csum := rfl

@[simp] theorem CoreState.complete_target (s : CoreState n w) :
    (s.complete).target = s.target := rfl

@[simp] theorem CoreState.complete_trials (s : CoreState n w) :
    (s.complete).trials = s.trials := rfl

@[simp] theorem CoreState.complete_collisions (s : CoreState n w) :
    (s.complete).collisions = s.collisions := rfl

@[simp] theorem CoreState.complete_getq (s : CoreState n w) :
    (s.complete).getq = s.getq := rfl

@[simp] theorem CoreState.complete_ovf (s : CoreState n w) :
    (s.complete).ovf = s.ovf := rfl

@[simp] theorem CoreState.complete_seq (s : CoreState n w) :
    (s.complete).seq = .idle := rfl

@[simp] theorem CoreState.complete_fcode (s : CoreState n w) :
    (s.complete).fcode = s.fcode := rfl

@[simp] theorem CoreState.complete_finfo (s : CoreState n w) :
    (s.complete).finfo = s.finfo := rfl

@[simp] theorem CoreState.complete_gen (s : CoreState n w) :
    (s.complete).gen = s.gen := rfl

@[simp] theorem CoreState.complete_random (s : CoreState n w) :
    (s.complete).random = s.random := rfl
/-! ### Fault entry -/


@[simp] theorem CoreState.faultEntry_frame (kind : FaultKind) (word : CmdWord) (s : CoreState n w) :
    (s.faultEntry kind word).frame = s.frame := rfl

@[simp] theorem CoreState.faultEntry_r (kind : FaultKind) (word : CmdWord) (s : CoreState n w) :
    (s.faultEntry kind word).r = s.r := rfl

@[simp] theorem CoreState.faultEntry_csum (kind : FaultKind) (word : CmdWord) (s : CoreState n w) :
    (s.faultEntry kind word).csum = s.csum := rfl

@[simp] theorem CoreState.faultEntry_target (kind : FaultKind) (word : CmdWord) (s : CoreState n w) :
    (s.faultEntry kind word).target = s.target := rfl

@[simp] theorem CoreState.faultEntry_trials (kind : FaultKind) (word : CmdWord) (s : CoreState n w) :
    (s.faultEntry kind word).trials = s.trials := rfl

@[simp] theorem CoreState.faultEntry_collisions (kind : FaultKind) (word : CmdWord) (s : CoreState n w) :
    (s.faultEntry kind word).collisions = s.collisions := rfl

@[simp] theorem CoreState.faultEntry_getq (kind : FaultKind) (word : CmdWord) (s : CoreState n w) :
    (s.faultEntry kind word).getq = s.getq := rfl

@[simp] theorem CoreState.faultEntry_ovf (kind : FaultKind) (word : CmdWord) (s : CoreState n w) :
    (s.faultEntry kind word).ovf = s.ovf := rfl

@[simp] theorem CoreState.faultEntry_seq (kind : FaultKind) (word : CmdWord) (s : CoreState n w) :
    (s.faultEntry kind word).seq = .halt := rfl

@[simp] theorem CoreState.faultEntry_fcode (kind : FaultKind) (word : CmdWord) (s : CoreState n w) :
    (s.faultEntry kind word).fcode = FaultKind.code kind := rfl

@[simp] theorem CoreState.faultEntry_finfo (kind : FaultKind) (word : CmdWord) (s : CoreState n w) :
    (s.faultEntry kind word).finfo = word := rfl

@[simp] theorem CoreState.faultEntry_gen (kind : FaultKind) (word : CmdWord) (s : CoreState n w) :
    (s.faultEntry kind word).gen = s.gen := rfl

@[simp] theorem CoreState.faultEntry_random (kind : FaultKind) (word : CmdWord) (s : CoreState n w) :
    (s.faultEntry kind word).random = s.random := rfl
/-! ### Reset -/


@[simp] theorem CoreState.applyReset_frame (s : CoreState n w) :
    (s.applyReset).frame = (CoreState.reset n w).frame := rfl

@[simp] theorem CoreState.applyReset_r (s : CoreState n w) :
    (s.applyReset).r = (CoreState.reset n w).r := rfl

@[simp] theorem CoreState.applyReset_csum (s : CoreState n w) :
    (s.applyReset).csum = (CoreState.reset n w).csum := rfl

@[simp] theorem CoreState.applyReset_target (s : CoreState n w) :
    (s.applyReset).target = (CoreState.reset n w).target := rfl

@[simp] theorem CoreState.applyReset_trials (s : CoreState n w) :
    (s.applyReset).trials = (CoreState.reset n w).trials := rfl

@[simp] theorem CoreState.applyReset_collisions (s : CoreState n w) :
    (s.applyReset).collisions = (CoreState.reset n w).collisions := rfl

@[simp] theorem CoreState.applyReset_getq (s : CoreState n w) :
    (s.applyReset).getq = (CoreState.reset n w).getq := rfl

@[simp] theorem CoreState.applyReset_ovf (s : CoreState n w) :
    (s.applyReset).ovf = (CoreState.reset n w).ovf := rfl

@[simp] theorem CoreState.applyReset_seq (s : CoreState n w) :
    (s.applyReset).seq = (CoreState.reset n w).seq := rfl

@[simp] theorem CoreState.applyReset_fcode (s : CoreState n w) :
    (s.applyReset).fcode = (CoreState.reset n w).fcode := rfl

@[simp] theorem CoreState.applyReset_finfo (s : CoreState n w) :
    (s.applyReset).finfo = (CoreState.reset n w).finfo := rfl

@[simp] theorem CoreState.applyReset_gen (s : CoreState n w) :
    (s.applyReset).gen = (CoreState.reset n w).gen := rfl

@[simp] theorem CoreState.applyReset_random (s : CoreState n w) :
    (s.applyReset).random = s.random := rfl
/-! ### The mutator -/


@[simp] theorem CoreState.mutate_frame (p : Pattern) (s : CoreState n w) :
    (s.mutate p).frame = applyPattern s.frame p := rfl

@[simp] theorem CoreState.mutate_r (p : Pattern) (s : CoreState n w) :
    (s.mutate p).r = s.r := rfl

@[simp] theorem CoreState.mutate_csum (p : Pattern) (s : CoreState n w) :
    (s.mutate p).csum = s.csum := rfl

@[simp] theorem CoreState.mutate_target (p : Pattern) (s : CoreState n w) :
    (s.mutate p).target = s.target := rfl

@[simp] theorem CoreState.mutate_trials (p : Pattern) (s : CoreState n w) :
    (s.mutate p).trials = s.trials := rfl

@[simp] theorem CoreState.mutate_collisions (p : Pattern) (s : CoreState n w) :
    (s.mutate p).collisions = s.collisions := rfl

@[simp] theorem CoreState.mutate_getq (p : Pattern) (s : CoreState n w) :
    (s.mutate p).getq = s.getq := rfl

@[simp] theorem CoreState.mutate_ovf (p : Pattern) (s : CoreState n w) :
    (s.mutate p).ovf = s.ovf := rfl

@[simp] theorem CoreState.mutate_seq (p : Pattern) (s : CoreState n w) :
    (s.mutate p).seq = s.seq := rfl

@[simp] theorem CoreState.mutate_fcode (p : Pattern) (s : CoreState n w) :
    (s.mutate p).fcode = s.fcode := rfl

@[simp] theorem CoreState.mutate_finfo (p : Pattern) (s : CoreState n w) :
    (s.mutate p).finfo = s.finfo := rfl

@[simp] theorem CoreState.mutate_gen (p : Pattern) (s : CoreState n w) :
    (s.mutate p).gen = s.gen := rfl

@[simp] theorem CoreState.mutate_random (p : Pattern) (s : CoreState n w) :
    (s.mutate p).random = s.random := rfl
/-! ### The checksum computation -/


@[simp] theorem CoreState.compute_frame (poly : BitVec w) (s : CoreState n w) :
    (s.compute poly).frame = s.frame := rfl

@[simp] theorem CoreState.compute_r (poly : BitVec w) (s : CoreState n w) :
    (s.compute poly).r = crc poly s.frame := rfl

@[simp] theorem CoreState.compute_csum (poly : BitVec w) (s : CoreState n w) :
    (s.compute poly).csum = s.csum := rfl

@[simp] theorem CoreState.compute_target (poly : BitVec w) (s : CoreState n w) :
    (s.compute poly).target = s.target := rfl

@[simp] theorem CoreState.compute_trials (poly : BitVec w) (s : CoreState n w) :
    (s.compute poly).trials = s.trials := rfl

@[simp] theorem CoreState.compute_collisions (poly : BitVec w) (s : CoreState n w) :
    (s.compute poly).collisions = s.collisions := rfl

@[simp] theorem CoreState.compute_getq (poly : BitVec w) (s : CoreState n w) :
    (s.compute poly).getq = s.getq := rfl

@[simp] theorem CoreState.compute_ovf (poly : BitVec w) (s : CoreState n w) :
    (s.compute poly).ovf = s.ovf := rfl

@[simp] theorem CoreState.compute_seq (poly : BitVec w) (s : CoreState n w) :
    (s.compute poly).seq = s.seq := rfl

@[simp] theorem CoreState.compute_fcode (poly : BitVec w) (s : CoreState n w) :
    (s.compute poly).fcode = s.fcode := rfl

@[simp] theorem CoreState.compute_finfo (poly : BitVec w) (s : CoreState n w) :
    (s.compute poly).finfo = s.finfo := rfl

@[simp] theorem CoreState.compute_gen (poly : BitVec w) (s : CoreState n w) :
    (s.compute poly).gen = s.gen := rfl

@[simp] theorem CoreState.compute_random (poly : BitVec w) (s : CoreState n w) :
    (s.compute poly).random = s.random := rfl
/-! ### Counting a trial -/


@[simp] theorem CoreState.countTrial_frame (s : CoreState n w) :
    (s.countTrial).frame = s.frame := rfl

@[simp] theorem CoreState.countTrial_r (s : CoreState n w) :
    (s.countTrial).r = s.r := rfl

@[simp] theorem CoreState.countTrial_csum (s : CoreState n w) :
    (s.countTrial).csum = s.csum := rfl

@[simp] theorem CoreState.countTrial_target (s : CoreState n w) :
    (s.countTrial).target = s.target := rfl

@[simp] theorem CoreState.countTrial_trials (s : CoreState n w) :
    (s.countTrial).trials = s.trials + 1 := rfl

@[simp] theorem CoreState.countTrial_collisions (s : CoreState n w) :
    (s.countTrial).collisions = s.collisions := rfl

@[simp] theorem CoreState.countTrial_getq (s : CoreState n w) :
    (s.countTrial).getq = s.getq := rfl

@[simp] theorem CoreState.countTrial_ovf (s : CoreState n w) :
    (s.countTrial).ovf = ovfAfter (s.trials + 1) s.ovf := rfl

@[simp] theorem CoreState.countTrial_seq (s : CoreState n w) :
    (s.countTrial).seq = s.seq := rfl

@[simp] theorem CoreState.countTrial_fcode (s : CoreState n w) :
    (s.countTrial).fcode = s.fcode := rfl

@[simp] theorem CoreState.countTrial_finfo (s : CoreState n w) :
    (s.countTrial).finfo = s.finfo := rfl

@[simp] theorem CoreState.countTrial_gen (s : CoreState n w) :
    (s.countTrial).gen = s.gen := rfl

@[simp] theorem CoreState.countTrial_random (s : CoreState n w) :
    (s.countTrial).random = s.random := rfl
/-! ### The start of a sweep -/


@[simp] theorem CoreState.sweepStart_frame (sw : Sweep) (s : CoreState n w) :
    (s.sweepStart sw).frame = s.frame := rfl

@[simp] theorem CoreState.sweepStart_r (sw : Sweep) (s : CoreState n w) :
    (s.sweepStart sw).r = s.r := rfl

@[simp] theorem CoreState.sweepStart_csum (sw : Sweep) (s : CoreState n w) :
    (s.sweepStart sw).csum = s.csum := rfl

@[simp] theorem CoreState.sweepStart_target (sw : Sweep) (s : CoreState n w) :
    (s.sweepStart sw).target = s.target := rfl

@[simp] theorem CoreState.sweepStart_trials (sw : Sweep) (s : CoreState n w) :
    (s.sweepStart sw).trials = 0 := rfl

@[simp] theorem CoreState.sweepStart_collisions (sw : Sweep) (s : CoreState n w) :
    (s.sweepStart sw).collisions = 0 := rfl

@[simp] theorem CoreState.sweepStart_getq (sw : Sweep) (s : CoreState n w) :
    (s.sweepStart sw).getq = s.getq := rfl

@[simp] theorem CoreState.sweepStart_ovf (sw : Sweep) (s : CoreState n w) :
    (s.sweepStart sw).ovf = false := rfl

@[simp] theorem CoreState.sweepStart_seq (sw : Sweep) (s : CoreState n w) :
    (s.sweepStart sw).seq = s.seq := rfl

@[simp] theorem CoreState.sweepStart_fcode (sw : Sweep) (s : CoreState n w) :
    (s.sweepStart sw).fcode = s.fcode := rfl

@[simp] theorem CoreState.sweepStart_finfo (sw : Sweep) (s : CoreState n w) :
    (s.sweepStart sw).finfo = s.finfo := rfl

@[simp] theorem CoreState.sweepStart_gen (sw : Sweep) (s : CoreState n w) :
    (s.sweepStart sw).gen = (sw.first n s.random).1 := rfl

@[simp] theorem CoreState.sweepStart_random (sw : Sweep) (s : CoreState n w) :
    (s.sweepStart sw).random = (sw.first n s.random).2 := rfl
/-! ### The next generator position -/


@[simp] theorem CoreState.advance_frame (s : CoreState n w) :
    (s.advance).frame = s.frame := rfl

@[simp] theorem CoreState.advance_r (s : CoreState n w) :
    (s.advance).r = s.r := rfl

@[simp] theorem CoreState.advance_csum (s : CoreState n w) :
    (s.advance).csum = s.csum := rfl

@[simp] theorem CoreState.advance_target (s : CoreState n w) :
    (s.advance).target = s.target := rfl

@[simp] theorem CoreState.advance_trials (s : CoreState n w) :
    (s.advance).trials = s.trials := rfl

@[simp] theorem CoreState.advance_collisions (s : CoreState n w) :
    (s.advance).collisions = s.collisions := rfl

@[simp] theorem CoreState.advance_getq (s : CoreState n w) :
    (s.advance).getq = s.getq := rfl

@[simp] theorem CoreState.advance_ovf (s : CoreState n w) :
    (s.advance).ovf = s.ovf := rfl

@[simp] theorem CoreState.advance_seq (s : CoreState n w) :
    (s.advance).seq = s.seq := rfl

@[simp] theorem CoreState.advance_fcode (s : CoreState n w) :
    (s.advance).fcode = s.fcode := rfl

@[simp] theorem CoreState.advance_finfo (s : CoreState n w) :
    (s.advance).finfo = s.finfo := rfl

@[simp] theorem CoreState.advance_gen (s : CoreState n w) :
    (s.advance).gen = (genNext n s.gen s.random).1 := rfl

@[simp] theorem CoreState.advance_random (s : CoreState n w) :
    (s.advance).random = (genNext n s.gen s.random).2 := rfl

/-! ### The comparator -/

@[simp] theorem CoreState.compare_frame (s : CoreState n w) : s.compare.frame = s.frame := by
  unfold CoreState.compare; split <;> rfl

@[simp] theorem CoreState.compare_r (s : CoreState n w) : s.compare.r = s.r := by
  unfold CoreState.compare; split <;> rfl

@[simp] theorem CoreState.compare_csum (s : CoreState n w) : s.compare.csum = s.csum := by
  unfold CoreState.compare; split <;> rfl

@[simp] theorem CoreState.compare_target (s : CoreState n w) : s.compare.target = s.target := by
  unfold CoreState.compare; split <;> rfl

@[simp] theorem CoreState.compare_trials (s : CoreState n w) : s.compare.trials = s.trials := by
  unfold CoreState.compare; split <;> rfl

@[simp] theorem CoreState.compare_collisions (s : CoreState n w) :
    s.compare.collisions = if s.r = s.target then s.collisions + 1 else s.collisions := by
  unfold CoreState.compare; split <;> rfl

@[simp] theorem CoreState.compare_getq (s : CoreState n w) : s.compare.getq = s.getq := by
  unfold CoreState.compare; split <;> rfl

@[simp] theorem CoreState.compare_ovf (s : CoreState n w) : s.compare.ovf = s.ovf := by
  unfold CoreState.compare; split <;> rfl

@[simp] theorem CoreState.compare_seq (s : CoreState n w) : s.compare.seq = s.seq := by
  unfold CoreState.compare; split <;> rfl

@[simp] theorem CoreState.compare_fcode (s : CoreState n w) : s.compare.fcode = s.fcode := by
  unfold CoreState.compare; split <;> rfl

@[simp] theorem CoreState.compare_finfo (s : CoreState n w) : s.compare.finfo = s.finfo := by
  unfold CoreState.compare; split <;> rfl

@[simp] theorem CoreState.compare_gen (s : CoreState n w) : s.compare.gen = s.gen := by
  unfold CoreState.compare; split <;> rfl

@[simp] theorem CoreState.compare_random (s : CoreState n w) : s.compare.random = s.random := by
  unfold CoreState.compare; split <;> rfl

/-! ### The registers in the machine -/

@[simp] theorem State.mapCore_toCoreState
    (f : CoreState Config.frameLen Config.crcWidth → CoreState Config.frameLen Config.crcWidth) (s : State) :
    (s.mapCore f).toCoreState = f s.toCoreState := rfl

@[simp] theorem State.mapCore_host
    (f : CoreState Config.frameLen Config.crcWidth → CoreState Config.frameLen Config.crcWidth) (s : State) :
    (s.mapCore f).host = s.host := rfl

@[simp] theorem State.sampled_toCoreState (s : State) : s.sampled.toCoreState = s.toCoreState := rfl

@[simp] theorem State.sampled_host (s : State) : s.sampled.host = s.host.tail := rfl

@[simp] theorem State.reset_toCoreState :
    State.reset.toCoreState = CoreState.reset Config.frameLen Config.crcWidth := rfl

@[simp] theorem State.reset_host : State.reset.host = [] := rfl

/-- Two states of the registers are equal when every field is. -/
theorem CoreState.ext_fields {s t : CoreState n w} (hframe : s.frame = t.frame) (hr : s.r = t.r)
    (hcsum : s.csum = t.csum) (htarget : s.target = t.target) (htrials : s.trials = t.trials)
    (hcollisions : s.collisions = t.collisions) (hgetq : s.getq = t.getq) (hovf : s.ovf = t.ovf)
    (hseq : s.seq = t.seq) (hfcode : s.fcode = t.fcode) (hfinfo : s.finfo = t.finfo) (hgen : s.gen = t.gen)
    (hrandom : s.random = t.random) : s = t := by
  cases s; cases t; simp_all

/-! ### The output ports -/

@[simp] theorem CoreState.outputPorts_cmdReady (s : CoreState n w) : s.outputPorts.cmdReady = s.cmdReady := rfl

@[simp] theorem CoreState.outputPorts_seqBits (s : CoreState n w) :
    s.outputPorts.seqBits = s.status.extractLsb' 0 2 := rfl

@[simp] theorem CoreState.outputPorts_results (s : CoreState n w) : s.outputPorts.results = s.resultPorts := rfl

end Sys2Proof.Machine
end

