-- ==== Sys2Proof/Laws/Frame.lean ====
section
/-!
SUPPORT. The frame primitives and the mutator: what one flip does to each bit, and what a pattern does to a frame.
-/

namespace Sys2Proof.Machine

variable {n w : Nat}

/-- One flip toggles the named bit, if the frame has it, and no other. -/
theorem frameRead_frameFlip (f : BitVec n) (i j : Nat) :
    frameRead (frameFlip f i) j = (frameRead f j ^^ decide (j = i ∧ i < n)) := by
  by_cases h : i = j <;> simp [frameRead, frameFlip, BitVec.getLsbD_twoPow, h, eq_comm (a := j)]

/-- Flipping adds a single-bit frame. -/
theorem frameFlip_eq_xor (f : BitVec n) (i : Nat) : frameFlip f i = f ^^^ BitVec.twoPow n i := rfl

/-- Applying a pattern to a sum applies it to one of the summands. -/
theorem applyPattern_xor (f g : BitVec n) (p : Pattern) : applyPattern (f ^^^ g) p = f ^^^ applyPattern g p := by
  induction p generalizing g with
  | nil => rfl
  | cons i p ih => simp only [applyPattern, List.foldl_cons, frameFlip_eq_xor, BitVec.xor_assoc] at ih ⊢; exact ih _

/-- Applying a pattern adds its error frame. -/
theorem applyPattern_eq_xor (f : BitVec n) (p : Pattern) : applyPattern f p = f ^^^ errorFrame n p := by
  rw [errorFrame, ← applyPattern_xor, BitVec.xor_zero]

/-- The empty pattern's error frame is zero. -/
@[simp] theorem errorFrame_nil : errorFrame n [] = 0#n := rfl

/-- Applying a pattern twice leaves the frame as it was, whatever the pattern. -/
theorem applyPattern_twice (f : BitVec n) (p : Pattern) : applyPattern (applyPattern f p) p = f := by
  rw [applyPattern_eq_xor (applyPattern f p), applyPattern_eq_xor f, BitVec.xor_assoc, BitVec.xor_self,
    BitVec.xor_zero]

@[simp] theorem frameRead_xor (f g : BitVec n) (j : Nat) :
    frameRead (f ^^^ g) j = (frameRead f j ^^ frameRead g j) := BitVec.getLsbD_xor

@[simp] theorem frameRead_zero (j : Nat) : frameRead (0#n) j = false := BitVec.getLsbD_zero

/-- The error frame of a pattern, one index at a time. -/
theorem errorFrame_cons (i : Nat) (p : Pattern) :
    errorFrame n (i :: p) = frameFlip 0#n i ^^^ errorFrame n p :=
  applyPattern_eq_xor (frameFlip 0#n i) p

/-- Reading a bit of a pattern's error frame: for distinct indices, the pattern names it. -/
theorem frameRead_errorFrame (p : Pattern) (hp : p.Nodup) (j : Nat) (hj : j < n) :
    frameRead (errorFrame n p) j = decide (j ∈ p) := by
  induction p with
  | nil => simp
  | cons i p ih =>
    obtain ⟨hi, hp⟩ := List.nodup_cons.1 hp
    rw [errorFrame_cons, frameRead_xor, frameRead_frameFlip, ih hp]
    by_cases h : j = i
    · subst h; simp [hi, hj]
    · simp [h]

end Sys2Proof.Machine
end

