-- ==== Sys2Proof/Laws/Crc.lean ====
section
/-!
SUPPORT. The shift register step by step: its zero, its linearity, that an input bit acts like the register's top bit,
that with the low polynomial bit 1 no nonzero register steps to zero, and so that no short window of bits has
checksum 0.
-/

namespace Sys2Proof.Machine

variable {n w : Nat}

@[simp] theorem crcStep_zero_false (poly : BitVec w) : crcStep poly 0#w false = 0#w := by simp [crcStep]

/-- The step is linear in the register and the input bit together. -/
theorem crcStep_xor (poly r r' : BitVec w) (b b' : Bool) :
    crcStep poly (r ^^^ r') (b ^^ b') = crcStep poly r b ^^^ crcStep poly r' b' := by
  unfold crcStep
  rw [BitVec.msb_xor, BitVec.shiftLeft_xor_distrib]
  cases b <;> cases b' <;> cases r.msb <;> cases r'.msb <;> simp <;>
    (ext i hi; simp only [BitVec.getElem_xor]; grind)

/-- An input bit acts as if added to the register's top bit. -/
theorem crcStep_eq_false (poly r : BitVec w) (b : Bool) :
    crcStep poly r b = crcStep poly (r ^^^ (if b then BitVec.twoPow w (w - 1) else 0#w)) false := by
  rcases Nat.eq_zero_or_pos w with rfl | hw
  · exact BitVec.eq_of_toNat_eq (by simp [BitVec.of_length_zero])
  cases b with
  | false => simp
  | true =>
    have htop : (BitVec.twoPow w (w - 1)).msb = true := by
      rw [BitVec.msb_eq_getLsbD_last, BitVec.getLsbD_twoPow]; simp; omega
    have hgone : BitVec.twoPow w (w - 1) <<< 1 = 0#w := by ext i hi; simp; omega
    unfold crcStep
    simp only [BitVec.msb_xor, htop, if_true, BitVec.shiftLeft_xor_distrib, hgone]
    simp [Bool.xor_comm]

/-- With the low polynomial bit 1, the low bit after a step with input 0 is the old top bit, and while that is 0 every
other bit is the one below it. -/
theorem crcStep_false_bits (poly r : BitVec w) (h : poly.getLsbD 0 = true) :
    (crcStep poly r false).getLsbD 0 = r.getLsbD (w - 1) ∧
    (r.getLsbD (w - 1) = false → ∀ j, j + 1 < w → (crcStep poly r false).getLsbD (j + 1) = r.getLsbD j) := by
  have hw : 0 < w := Nat.pos_of_ne_zero fun h0 => by subst h0; simp at h
  have hm : r.msb = r.getLsbD (w - 1) := BitVec.msb_eq_getLsbD_last r
  refine ⟨?_, fun htop j hj => ?_⟩
  · unfold crcStep; rw [hm]
    cases htop : r.getLsbD (w - 1) <;> simp [h]
  · unfold crcStep; rw [hm, htop]
    simp [hj, BitVec.getLsbD_eq_getElem (show j < w by omega)]

/-- With the low polynomial bit 1, only the zero register steps to zero under input 0. -/
theorem eq_zero_of_crcStep_false (poly r : BitVec w) (h : poly.getLsbD 0 = true)
    (hr : crcStep poly r false = 0#w) : r = 0#w := by
  obtain ⟨h0, hj⟩ := crcStep_false_bits poly r h
  rw [hr] at h0 hj
  have htop : r.getLsbD (w - 1) = false := by simpa using h0.symm
  ext i hi
  rw [← BitVec.getLsbD_eq_getElem]
  by_cases hlast : i = w - 1
  · subst hlast; simp [htop]
  · simpa using (hj htop i (by omega)).symm

/-- While the frame's bits are 0 the register stays 0. -/
theorem crcAfter_eq_zero (poly : BitVec w) (f : BitVec n) (s : Nat) (h : ∀ i, i < s → frameRead f i = false) :
    ∀ i, i ≤ s → crcAfter poly f i = 0#w := by
  intro i hi
  induction i with
  | zero => rfl
  | succ i ih => rw [crcAfter, ih (by omega), h i (by omega), crcStep_zero_false]

/-- Once the frame's bits are 0 a register that ends at 0 was 0. -/
theorem crcAfter_back_zero (poly : BitVec w) (h0 : poly.getLsbD 0 = true) (f : BitVec n) (e : Nat)
    (h : ∀ i, e ≤ i → frameRead f i = false) (d : Nat) (hd : crcAfter poly f (e + d) = 0#w) :
    crcAfter poly f e = 0#w := by
  induction d with
  | zero => exact hd
  | succ d ih =>
    rw [← Nat.add_assoc, crcAfter, h (e + d) (by omega)] at hd
    exact ih (eq_zero_of_crcStep_false poly _ h0 hd)

/-- Read backwards from a register that is 0, the last `j` frame bits stand in the register's top `j` places. -/
theorem crcAfter_window (poly : BitVec w) (h0 : poly.getLsbD 0 = true) (f : BitVec n) (s len : Nat) (hlen : len ≤ w)
    (hend : crcAfter poly f (s + len) = 0#w) (j : Nat) (hj : j ≤ len) :
    ∀ t, t < w → (crcAfter poly f (s + (len - j))).getLsbD t =
      (decide (w - j ≤ t) && frameRead f (s + (len - j) + (w - 1 - t))) := by
  induction j with
  | zero => intro t ht; simp [hend]; omega
  | succ j ih =>
    intro t ht
    have ih := ih (by omega)
    rw [show s + (len - j) = s + (len - (j + 1)) + 1 by omega, crcAfter, crcStep_eq_false] at ih
    generalize hq : s + (len - (j + 1)) = q at ih ⊢
    generalize hx : crcAfter poly f q ^^^ (if frameRead f q then BitVec.twoPow w (w - 1) else 0#w) = x at ih
    obtain ⟨hlow, hup⟩ := crcStep_false_bits poly x h0
    have htop : x.getLsbD (w - 1) = false := by
      rw [← hlow, ih 0 (by omega), decide_eq_false (by omega), Bool.false_and]
    have hr : crcAfter poly f q = x ^^^ (if frameRead f q then BitVec.twoPow w (w - 1) else 0#w) := by
      rw [← hx, BitVec.xor_assoc, BitVec.xor_self, BitVec.xor_zero]
    rw [hr, BitVec.getLsbD_xor]
    by_cases hlast : t = w - 1
    · subst hlast
      rw [htop, decide_eq_true (by omega)]
      cases hfr : frameRead f q
      · simp [hfr]
      · simp [hfr, BitVec.getLsbD_twoPow]; omega
    · have hbit := ih (t + 1) (by omega)
      rw [hup htop t (by omega), show q + 1 + (w - 1 - (t + 1)) = q + (w - 1 - t) by omega] at hbit
      have hside : (if frameRead f q then BitVec.twoPow w (w - 1) else 0#w).getLsbD t = false := by
        split <;> simp [BitVec.getLsbD_twoPow, show ¬ w - 1 = t by omega]
      rw [hside, Bool.xor_false, hbit]
      congr 1
      simp only [decide_eq_decide]; omega

/-- With the low polynomial bit 1, a frame whose ones lie in a window of at most `w` bits has checksum 0 only if it is
the zero frame (spec 41_crcengine R77, and the regularity of 95_test_vectors section 3). -/
theorem frameRead_eq_false_of_window (poly : BitVec w) (h0 : poly.getLsbD 0 = true) (f : BitVec n) (s len : Nat)
    (hlen : len ≤ w) (hin : s + len ≤ n) (hout : ∀ i, i < s ∨ s + len ≤ i → frameRead f i = false)
    (hcrc : crc poly f = 0#w) (i : Nat) : frameRead f i = false := by
  by_cases hi : i < s ∨ s + len ≤ i
  · exact hout i hi
  · have hend : crcAfter poly f (s + len) = 0#w :=
      crcAfter_back_zero poly h0 f (s + len) (fun i hi => hout i (.inr hi)) (n - (s + len))
        (by rwa [Nat.add_sub_cancel' hin])
    have := crcAfter_window poly h0 f s len hlen hend len (Nat.le_refl _) (w - 1 - (i - s)) (by omega)
    rw [Nat.sub_self, Nat.add_zero, crcAfter_eq_zero poly f s (fun i hi => hout i (.inl hi)) s (Nat.le_refl _),
      decide_eq_true (by omega), show s + (w - 1 - (w - 1 - (i - s))) = i by omega] at this
    simpa using this.symm

end Sys2Proof.Machine
end

