-- ==== Sys2Proof/Laws/Decode.lean ====
section
/-!
SUPPORT. The fields of a packed word, and the operation codes.
-/

namespace Sys2Proof

@[simp] theorem opField_packWord (op arg : BitVec 8) (cnt : BitVec 48) : opField (packWord op arg cnt) = op := by
  ext i hi
  simp only [opField, packWord, BitVec.getElem_extractLsb', BitVec.getLsbD_append]
  simp [show ¬ (56 + i < 48) by omega, show ¬ (56 + i - 48 < 8) by omega, show 56 + i - 48 - 8 = i by omega, hi]

@[simp] theorem argField_packWord (op arg : BitVec 8) (cnt : BitVec 48) : argField (packWord op arg cnt) = arg := by
  ext i hi
  simp only [argField, packWord, BitVec.getElem_extractLsb', BitVec.getLsbD_append]
  simp [show ¬ (48 + i < 48) by omega, show 48 + i - 48 = i by omega, hi]

@[simp] theorem cntField_packWord (op arg : BitVec 8) (cnt : BitVec 48) : cntField (packWord op arg cnt) = cnt := by
  ext i hi
  simp only [cntField, packWord, BitVec.getElem_extractLsb', BitVec.getLsbD_append]
  simp [hi]

/-- A command is well formed when its operands are below the fields' bounds. -/
theorem Instr.wellFormed_iff (i : Instr) :
    i.WellFormed ↔ i.argOperand < 256 ∧ i.cntOperand < 281474976710656 := Iff.rfl

/-- A word is its three fields. -/
theorem packWord_fields (word : CmdWord) : packWord (opField word) (argField word) (cntField word) = word := by
  ext i hi
  simp only [opField, argField, cntField, packWord]
  rw [← BitVec.getLsbD_eq_getElem, ← BitVec.getLsbD_eq_getElem, BitVec.getLsbD_append, BitVec.getLsbD_append]
  by_cases h1 : i < 48
  · simp [h1]
  · by_cases h2 : i - 48 < 8
    · simp [h1, h2, show 48 + (i - 48) = i by omega]
    · simp [h1, h2, show i - 48 - 8 < 8 by omega, show 56 + (i - 48 - 8) = i by omega]

/-- Words with the same fields are the same word. -/
theorem packWord_inj {op op' arg arg' : BitVec 8} {cnt cnt' : BitVec 48} :
    packWord op arg cnt = packWord op' arg' cnt' ↔ op = op' ∧ arg = arg' ∧ cnt = cnt' := by
  constructor
  · intro h
    exact ⟨by simpa using congrArg opField h, by simpa using congrArg argField h, by simpa using congrArg cntField h⟩
  · rintro ⟨rfl, rfl, rfl⟩; rfl

/-- Masking a word masks its fields. -/
theorem packWord_and (op op' arg arg' : BitVec 8) (cnt cnt' : BitVec 48) :
    packWord op arg cnt &&& packWord op' arg' cnt' = packWord (op &&& op') (arg &&& arg') (cnt &&& cnt') := by
  refine BitVec.eq_of_getLsbD_eq fun i _ => ?_
  rw [BitVec.getLsbD_and]
  simp only [packWord, BitVec.getLsbD_append]
  split
  · exact BitVec.getLsbD_and.symm
  · split <;> exact BitVec.getLsbD_and.symm

/-- Every operation code is found by its value. -/
@[simp] theorem Opcode.ofBits_bits (o : Opcode) : Opcode.ofBits o.bits = some o := by
  cases o <;> decide

/-- Only its value finds an operation code. -/
theorem Opcode.bits_of_ofBits {op : BitVec 8} {o : Opcode} (h : Opcode.ofBits op = some o) : o.bits = op := by
  simpa using List.find?_some h

/-- What the decoder reads in a packed word with a defined operation code. -/
theorem decode_packWord (o : Opcode) (arg : BitVec 8) (cnt : BitVec 48) :
    decode (packWord o.bits arg cnt) =
      if reservedSet o arg cnt then .error .illegalField else .ok (o.instr arg cnt) := by
  simp [decode]

end Sys2Proof
end

