-- ==== Sys2Proof/Laws/Generator.lean ====
section
/-!
SUPPORT. The generator position runs through exactly the sequence its sweep lists, in its order, and the sequence has
the size the sweep allots.
-/

namespace Sys2Proof.Machine

/-- The generator position `g`, with the random source `src`, runs through the patterns `ps` to the end of its
sequence and leaves the random source `src'`. -/
inductive Enumerates (n : Nat) : Gen → RandomSource → List Pattern → RandomSource → Prop
  | done (src : RandomSource) : Enumerates n .none src [] src
  | more (g : Gen) (src : RandomSource) (ps : List Pattern) (src' : RandomSource) (hg : g ≠ .none)
      (rest : Enumerates n (genNext n g src).1 (genNext n g src).2 ps src') :
      Enumerates n g src (g.pattern :: ps) src'

/-! ### Combinations -/

/-- The successor of a combination has its length. -/
theorem length_of_nextComb {n : Nat} {c d : List Nat} (h : nextComb n c = some d) : d.length = c.length := by
  induction c generalizing d with
  | nil => simp [nextComb] at h
  | cons a rest ih =>
    simp only [nextComb] at h
    split at h
    · rename_i rest' hr; cases h; simp [ih hr]
    · split at h <;> simp at h
      subst h; simp

/-- The combinations after `c` are exactly `l`. -/
def Follows (n : Nat) : List Nat → List (List Nat) → Prop
  | c, [] => nextComb n c = none
  | c, d :: l => nextComb n c = some d ∧ Follows n d l

/-- Below a fixed first index the combinations run on; at their end the first index rises, if it can. -/
theorem Follows.cons {n a k : Nat} {c : List Nat} {l m : List (List Nat)} (h : Follows n c l) (hc : c.length = k)
    (hm : if a + 1 + k < n then ∃ m', m = ((a + 1) :: List.range' (a + 2) k) :: m' ∧
        Follows n ((a + 1) :: List.range' (a + 2) k) m' else m = []) :
    Follows n (a :: c) (l.map (a :: ·) ++ m) := by
  induction l generalizing c with
  | nil =>
    simp only [Follows] at h
    split at hm
    · obtain ⟨m', rfl, hm'⟩ := hm
      rename_i hlt
      exact ⟨by simp [nextComb, h, hc, hlt], hm'⟩
    · rename_i hlt
      subst hm; simp [Follows, nextComb, h, hc, hlt]
  | cons d l ih =>
    obtain ⟨hd, hl⟩ := h
    exact ⟨by simp [nextComb, hd], ih hl (by rw [length_of_nextComb hd, hc])⟩

/-- No combination has more indices than there are. -/
theorem exhFrom_eq_nil {m s k : Nat} (h : m < k) : exhFrom m s k = [] := by
  induction m generalizing s k with
  | zero => cases k with
    | zero => omega
    | succ k => rfl
  | succ m ih => cases k with
    | zero => omega
    | succ k => simp [exhFrom, ih (show m < k by omega), ih (show m < k + 1 by omega)]

@[simp] theorem exhFrom_zero (m s : Nat) : exhFrom m s 0 = [[]] := by cases m <;> rfl

/-- The list of combinations starts at the least one and goes on by successors to the end. -/
theorem exhFrom_follows {n m s k : Nat} (hn : s + m = n) (hk : k ≤ m) :
    ∃ l, exhFrom m s k = List.range' s k :: l ∧ Follows n (List.range' s k) l := by
  induction m generalizing s k with
  | zero =>
    obtain rfl : k = 0 := by omega
    exact ⟨[], by simp, by simp [Follows, nextComb]⟩
  | succ m ih =>
    cases k with
    | zero => exact ⟨[], by simp, by simp [Follows, nextComb]⟩
    | succ k =>
      obtain ⟨l, hl, hf⟩ := ih (s := s + 1) (k := k) (by omega) (by omega)
      refine ⟨l.map (s :: ·) ++ exhFrom m (s + 1) (k + 1), by simp [exhFrom, hl, List.range'_succ], ?_⟩
      rw [List.range'_succ]
      refine hf.cons (k := k) (by simp) ?_
      split
      · obtain ⟨l', hl', hf'⟩ := ih (s := s + 1) (k := k + 1) (by omega) (by omega)
        rw [List.range'_succ] at hl' hf'
        exact ⟨l', hl', hf'⟩
      · exact exhFrom_eq_nil (by omega)

/-- A run of successors is an enumeration. -/
theorem Follows.enumerates {n : Nat} {c : List Nat} {l : List (List Nat)} (h : Follows n c l)
    (src : RandomSource) : Enumerates n (.exh c) src (c :: l) src := by
  induction l generalizing c with
  | nil =>
    refine .more (.exh c) src [] src (by simp) ?_
    simp only [Follows] at h
    simpa [genNext, h] using Enumerates.done src
  | cons d l ih =>
    refine .more (.exh c) src (d :: l) src (by simp) ?_
    simpa [genNext, h.1] using ih h.2

theorem enumerates_exh (n k : Nat) (src : RandomSource) :
    Enumerates n ((Sweep.exh k).first n src).1 ((Sweep.exh k).first n src).2 (exhPatterns n k) src := by
  by_cases hk : k ≤ n
  · obtain ⟨l, hl, hf⟩ := exhFrom_follows (n := n) (m := n) (s := 0) (by omega) hk
    simpa [Sweep.first, hk, exhPatterns, hl, List.range_eq_range'] using hf.enumerates src
  · simpa [Sweep.first, hk, exhPatterns, exhFrom_eq_nil (show n < k by omega)] using Enumerates.done src

/-- The successor of a tuple of strictly increasing indices of the frame is one, and its first index is no lower. -/
theorem validPattern_of_nextComb {n : Nat} {c d : List Nat} (h : nextComb n c = some d) (hc : ValidPattern n c) :
    ValidPattern n d ∧ ∀ a rest, c = a :: rest → ∃ a' rest', d = a' :: rest' ∧ a ≤ a' := by
  induction c generalizing d with
  | nil => simp [nextComb] at h
  | cons a rest ih =>
    obtain ⟨hmin, hrest⟩ := List.pairwise_cons.1 hc.1
    simp only [nextComb] at h
    split at h
    · rename_i rest' hr
      cases h
      obtain ⟨⟨hinc, hlt⟩, hhead⟩ := ih hr ⟨hrest, fun i hi => hc.2 i (List.mem_cons_of_mem _ hi)⟩
      refine ⟨⟨List.pairwise_cons.2 ⟨fun i hi => ?_, hinc⟩, fun i hi => ?_⟩, ?_⟩
      · cases rest with
        | nil => simp [nextComb] at hr
        | cons b rest =>
          obtain ⟨b', rest'', rfl, hb⟩ := hhead b rest rfl
          have hab := hmin b List.mem_cons_self
          rcases List.mem_cons.1 hi with rfl | hi
          · omega
          · have := (List.pairwise_cons.1 hinc).1 i hi; omega
      · rcases List.mem_cons.1 hi with rfl | hi
        · exact hc.2 _ List.mem_cons_self
        · exact hlt i hi
      · rintro _ _ h; cases h; exact ⟨_, _, rfl, Nat.le_refl _⟩
    · split at h <;> simp at h
      subst h
      refine ⟨⟨List.pairwise_cons.2 ⟨fun i hi => ?_, List.pairwise_lt_range'⟩, fun i hi => ?_⟩, ?_⟩
      · simp [List.mem_range'_1] at hi; omega
      · simp [List.mem_range'_1] at hi; omega
      · rintro _ _ h; cases h; exact ⟨_, _, rfl, by omega⟩

/-! ### Draws -/

theorem enumerates_draws (n k cnt : Nat) (src : RandomSource) :
    Enumerates n (Gen.ofDraw k (cnt + 1) (drawPattern n k src)).1 (Gen.ofDraw k (cnt + 1) (drawPattern n k src)).2
      (drawPatterns n k (cnt + 1) src).1 (drawPatterns n k (cnt + 1) src).2 := by
  induction cnt generalizing src with
  | zero =>
    refine .more (.rnd k 1 (drawPattern n k src).1) _ [] _ (by simp) ?_
    exact Enumerates.done (drawPattern n k src).2
  | succ cnt ih =>
    refine .more (.rnd k (cnt + 2) (drawPattern n k src).1) _ _ _ (by simp) ?_
    exact ih (drawPattern n k src).2

theorem enumerates_rnd (n k cnt : Nat) (src : RandomSource) :
    Enumerates n ((Sweep.rnd k cnt).first n src).1 ((Sweep.rnd k cnt).first n src).2
      ((Sweep.rnd k cnt).patterns n src).1 ((Sweep.rnd k cnt).patterns n src).2 := by
  by_cases hk : k ≤ n
  · cases cnt with
    | zero => simpa [Sweep.first, Sweep.patterns, hk, drawPatterns] using Enumerates.done src
    | succ cnt => simpa [Sweep.first, Sweep.patterns, hk] using enumerates_draws n k cnt src
  · simpa [Sweep.first, Sweep.patterns, hk] using Enumerates.done src

/-! ### Bursts -/

/-- From one mask on, the masks of a start offset and then all further start offsets. -/
theorem enumerates_burst_from (n len d : Nat) (src : RandomSource) : ∀ s, s + d = n - len → ∀ e m,
    m + e + 1 = burstMasks len →
    Enumerates n (.burst len s m) src
      ((List.range' m (e + 1)).map (burstPattern len s) ++
        (List.range' (s + 1) d).flatMap fun t => (List.range (burstMasks len)).map (burstPattern len t)) src := by
  induction d with
  | zero =>
    intro s hs e
    induction e with
    | zero =>
      intro m hm
      refine .more (.burst len s m) src [] src (by simp) ?_
      have h1 : ¬ m < burstMasks len - 1 := by omega
      have h2 : ¬ s < n - len := by omega
      simpa [genNext, h1, h2] using Enumerates.done src
    | succ e ih =>
      intro m hm
      rw [List.range'_succ]
      refine .more (.burst len s m) src _ src (by simp) ?_
      have h1 : m < burstMasks len - 1 := by omega
      simpa [genNext, h1] using ih (m + 1) (by omega)
  | succ d ihd =>
    intro s hs e
    induction e with
    | zero =>
      intro m hm
      refine .more (.burst len s m) src _ src (by simp) ?_
      have h1 : ¬ m < burstMasks len - 1 := by omega
      have h2 : s < n - len := by omega
      obtain ⟨e', he'⟩ : ∃ e', e' + 1 = burstMasks len := ⟨m, by omega⟩
      have := ihd (s + 1) (by omega) e' 0 (by omega)
      have hg : genNext n (.burst len s m) src = (.burst len (s + 1) 0, src) := by simp [genNext, h1, h2]
      rw [List.range'_succ, List.flatMap_cons, hg]
      simpa [List.range_eq_range', ← he'] using this
    | succ e ih =>
      intro m hm
      rw [List.range'_succ]
      refine .more (.burst len s m) src _ src (by simp) ?_
      have h1 : m < burstMasks len - 1 := by omega
      simpa [genNext, h1] using ih (m + 1) (by omega)

theorem burstMasks_pos (len : Nat) : 0 < burstMasks len := Nat.two_pow_pos _

theorem enumerates_burst (n len : Nat) (src : RandomSource) :
    Enumerates n ((Sweep.burst len).first n src).1 ((Sweep.burst len).first n src).2 (burstPatterns n len) src := by
  by_cases h : 2 ≤ len ∧ len ≤ n
  · obtain ⟨e, he⟩ : ∃ e, 0 + e + 1 = burstMasks len := ⟨burstMasks len - 1, by have := burstMasks_pos len; omega⟩
    have key := enumerates_burst_from n len (n - len) src 0 (by omega) e 0 he
    have hlist : burstPatterns n len = (List.range' 0 (e + 1)).map (burstPattern len 0) ++
        (List.range' (0 + 1) (n - len)).flatMap fun t => (List.range (burstMasks len)).map (burstPattern len t) := by
      rw [burstPatterns, if_pos h, List.range_eq_range' (n := n - len + 1), List.range'_succ, List.flatMap_cons,
        List.range_eq_range', show burstMasks len = e + 1 by omega]
    rw [hlist]
    simpa only [Sweep.first, if_pos h] using key
  · simpa [Sweep.first, burstPatterns, h] using Enumerates.done src

/-- The first generator position of a sweep runs through the sweep's sequence. -/
theorem enumerates_first (n : Nat) (sw : Sweep) (src : RandomSource) :
    Enumerates n (sw.first n src).1 (sw.first n src).2 (sw.patterns n src).1 (sw.patterns n src).2 := by
  cases sw with
  | exh k => exact enumerates_exh n k src
  | rnd k cnt => exact enumerates_rnd n k cnt src
  | burst len => exact enumerates_burst n len src

/-! ### Sizes -/

/-- The binomial coefficient is Mathlib's. -/
theorem binom_eq_choose (n k : Nat) : binom n k = n.choose k :=
  (Nat.choose_eq_descFactorial_div_factorial n k).symm

theorem length_exhFrom (m s k : Nat) : (exhFrom m s k).length = m.choose k := by
  induction m generalizing s k with
  | zero => cases k <;> simp [exhFrom]
  | succ m ih => cases k with
    | zero => simp
    | succ k => simp [exhFrom, ih, Nat.choose_succ_succ]

/-- The `a`-th combination is the one the answer `a` picks (log 3). -/
theorem getElem?_exhFrom (m s k a : Nat) (hk : k ≤ m) (ha : a < m.choose k) :
    (exhFrom m s k)[a]? = some (unrankFrom m s k a) := by
  induction m generalizing s k a with
  | zero =>
    obtain rfl : k = 0 := by omega
    obtain rfl : a = 0 := by simpa using ha
    simp [unrankFrom]
  | succ m ih =>
    cases k with
    | zero =>
      obtain rfl : a = 0 := by simpa using ha
      simp [unrankFrom]
    | succ k =>
      simp only [exhFrom, unrankFrom, binom_eq_choose]
      split
      · rename_i h
        rw [List.getElem?_append_left (by simpa [length_exhFrom] using h), List.getElem?_map,
          ih _ _ _ (by omega) h, Option.map_some]
      · rename_i h
        have ha' : a - m.choose k < m.choose (k + 1) := by rw [Nat.choose_succ_succ, Nat.succ_eq_add_one] at ha; omega
        have hk' : k + 1 ≤ m := by
          by_contra hlt
          rw [Nat.choose_eq_zero_of_lt (show m < k + 1 by omega)] at ha'; omega
        rw [List.getElem?_append_right (by simpa [length_exhFrom] using h)]
        simpa [length_exhFrom] using ih (s + 1) (k + 1) _ hk' ha'

@[simp] theorem length_drawPatterns (n k cnt : Nat) (src : RandomSource) :
    (drawPatterns n k cnt src).1.length = cnt := by
  induction cnt generalizing src with
  | zero => rfl
  | succ cnt ih => simp [drawPatterns, ih]

theorem length_burstPatterns (n len : Nat) :
    (burstPatterns n len).length = if 2 ≤ len ∧ len ≤ n then (n - len + 1) * burstMasks len else 0 := by
  unfold burstPatterns
  split <;> simp [List.length_flatMap]

/-- A sweep's sequence has the size the sweep allots. -/
theorem length_patterns (n : Nat) (sw : Sweep) (src : RandomSource) :
    (sw.patterns n src).1.length = sw.size n := by
  cases sw with
  | exh k => simp [Sweep.patterns, Sweep.size, exhPatterns, length_exhFrom, binom_eq_choose]
  | rnd k cnt => by_cases h : k ≤ n <;> simp [Sweep.patterns, Sweep.size, h]
  | burst len => simp [Sweep.patterns, Sweep.size, length_burstPatterns]

end Sys2Proof.Machine
end

