-- ==== Sys2Proof/Laws/PerInstr.lean ====
section
/-!
SUPPORT. Statements for all instructions, one lemma for each constructor.
-/

namespace Sys2Proof.Laws.RoundTrip

/-- The word of a command whose operands fit their fields decodes to that command (spec 30_encoding R55, R57). -/
def Statement (i : Instr) : Prop := i.WellFormed → decode (encode i) = .ok i

theorem nop : Statement .nop := fun _ => by decide

theorem frand : Statement .frand := fun _ => by decide

theorem crc : Statement .crc := fun _ => by decide

theorem tgt : Statement .tgt := fun _ => by decide

theorem fget (i : Nat) : Statement (.fget i) := fun h => by
  have hi : i < 256 := h.1
  simp [encode, Instr.opcode, Instr.argOperand, Instr.cntOperand, decode_packWord, reservedSet, Opcode.usesArg,
    Opcode.usesCnt, Opcode.instr, Nat.mod_eq_of_lt hi]

theorem fflip (i : Nat) : Statement (.fflip i) := fun h => by
  have hi : i < 256 := h.1
  simp [encode, Instr.opcode, Instr.argOperand, Instr.cntOperand, decode_packWord, reservedSet, Opcode.usesArg,
    Opcode.usesCnt, Opcode.instr, Nat.mod_eq_of_lt hi]

theorem exh (k : Nat) : Statement (.exh k) := fun h => by
  have hk : k < 256 := h.1
  simp [encode, Instr.opcode, Instr.argOperand, Instr.cntOperand, decode_packWord, reservedSet, Opcode.usesArg,
    Opcode.usesCnt, Opcode.instr, Nat.mod_eq_of_lt hk]

theorem burst (len : Nat) : Statement (.burst len) := fun h => by
  have hl : len < 256 := h.1
  simp [encode, Instr.opcode, Instr.argOperand, Instr.cntOperand, decode_packWord, reservedSet, Opcode.usesArg,
    Opcode.usesCnt, Opcode.instr, Nat.mod_eq_of_lt hl]

theorem rnd (k cnt : Nat) : Statement (.rnd k cnt) := fun h => by
  have hk : k < 256 := h.1
  have hc : cnt < 281474976710656 := h.2
  simp [encode, Instr.opcode, Instr.argOperand, Instr.cntOperand, decode_packWord, reservedSet, Opcode.usesArg,
    Opcode.usesCnt, Opcode.instr, Nat.mod_eq_of_lt hk, Nat.mod_eq_of_lt hc]

end Sys2Proof.Laws.RoundTrip
end

