-- ==== Sys2Proof/Laws/Sweep.lean ====
section
/-!
SUPPORT. What one trial does, what a run of trials does, and what a whole sweep does: the closed form of spec
43_collision_counter R98, which every claim about EXH, RND and BURST cites instead of unfolding a sweep.
-/

namespace Sys2Proof.Machine

variable {n w : Nat}

/-! ### One trial -/

/-- Everything a trial does (spec 43_collision_counter R96): the frame is as before. -/
theorem CoreState.trial_eq (poly : BitVec w) (p : Pattern) (s : CoreState n w) :
    s.trial poly p = { s with
      r := crc poly (s.frame ^^^ errorFrame n p)
      collisions := if collides poly s.frame s.target p then s.collisions + 1 else s.collisions
      trials := s.trials + 1
      ovf := ovfAfter (s.trials + 1) s.ovf } := by
  have hback : applyPattern (s.frame ^^^ errorFrame n p) p = s.frame := by
    rw [← applyPattern_eq_xor, applyPattern_twice]
  apply CoreState.ext_fields <;> simp [CoreState.trial, hback, collides, applyPattern_eq_xor s.frame]

/-! ### A run of trials -/

/-- R after a run of trials: the checksum of the last, if there was one. -/
def lastChecksum (poly : BitVec w) (f : BitVec n) (r : BitVec w) (ps : List Pattern) : BitVec w :=
  ps.foldl (fun _ p => crc poly (f ^^^ errorFrame n p)) r

/-- Everything a run of trials does, but for the two counters and OVF. -/
theorem CoreState.foldl_trial_eq (poly : BitVec w) (ps : List Pattern) (s : CoreState n w) :
    ps.foldl (fun c p => c.trial poly p) s = { s with
      r := lastChecksum poly s.frame s.r ps
      collisions := s.collisions + BitVec.ofNat 64 (collisionCount poly s.frame s.target ps)
      trials := s.trials + BitVec.ofNat 64 ps.length
      ovf := (ps.foldl (fun c p => c.trial poly p) s).ovf } := by
  induction ps generalizing s with
  | nil => simp [lastChecksum, collisionCount]
  | cons p ps ih =>
    rw [List.foldl_cons, ih, CoreState.trial_eq]
    have hone : ∀ (c : Counter) (k : Nat), c + 1 + BitVec.ofNat 64 k = c + BitVec.ofNat 64 (k + 1) := by
      intro c k; rw [Nat.add_comm k, BitVec.ofNat_add, BitVec.add_assoc]; rfl
    apply CoreState.ext_fields <;> try rfl
    · exact hone s.trials ps.length
    · by_cases h : collides poly s.frame s.target p
      · simpa [h, collisionCount] using hone s.collisions (collisionCount poly s.frame s.target ps)
      · simp [h, collisionCount]

/-- The top bit of a counter that has not passed `2^63` before its last increment. -/
theorem counter_msb_succ {j : Nat} (h : j < 2 ^ 63) :
    (BitVec.ofNat 64 (j + 1)).msb = decide (2 ^ 63 ≤ j + 1) := by
  rw [BitVec.msb_eq_decide, BitVec.toNat_ofNat, Nat.mod_eq_of_lt (by omega)]

/-- OVF tells whether the exact number of trials has reached `2^63` (spec 10_state R17, 43_collision_counter R105). -/
theorem CoreState.foldl_trial_ovf (poly : BitVec w) (ps : List Pattern) (s : CoreState n w) (j : Nat)
    (htrials : s.trials = BitVec.ofNat 64 j) (hovf : s.ovf = decide (2 ^ 63 ≤ j)) :
    (ps.foldl (fun c p => c.trial poly p) s).ovf = decide (2 ^ 63 ≤ j + ps.length) := by
  induction ps generalizing s j with
  | nil => simpa using hovf
  | cons p ps ih =>
    have hsucc : s.trials + 1 = BitVec.ofNat 64 (j + 1) := by rw [htrials, BitVec.ofNat_add]; rfl
    have := ih (s.trial poly p) (j + 1) (by rw [CoreState.trial_eq]; exact hsucc) (by
      rw [CoreState.trial_eq]
      by_cases h : j < 2 ^ 63
      · simp only [hsucc, ovfAfter, hovf, counter_msb_succ h]; simp; omega
      · rw [decide_eq_true (show 2 ^ 63 ≤ j + 1 by omega)]
        change ovfAfter _ s.ovf = true
        rw [ovfAfter, hovf, decide_eq_true (Nat.le_of_not_lt h), Bool.true_or])
    rw [List.foldl_cons, this, List.length_cons]
    congr 1
    simp only [eq_iff_iff]; omega

/-! ### A sweep in progress -/

/-- A sweep in progress, run for at least as many trials as its generator has patterns left, is the run of those
trials. -/
theorem CoreState.runSweep_eq (poly : BitVec w) {g : Gen} {src src' : RandomSource} {ps : List Pattern}
    (h : Enumerates n g src ps src') (s : CoreState n w) (hg : s.gen = g) (hsrc : s.random = src) (fuel : Nat)
    (hfuel : ps.length ≤ fuel) :
    s.runSweep poly fuel = { ps.foldl (fun c p => c.trial poly p) s with gen := .none, random := src' } := by
  induction h generalizing s fuel with
  | done src =>
    have hstop : ∀ fuel, s.runSweep poly fuel = s := by
      intro fuel
      induction fuel with
      | zero => rfl
      | succ fuel ih => rwa [CoreState.runSweep, CoreState.sweepTick, if_pos hg]
    rw [hstop]
    exact CoreState.ext_fields rfl rfl rfl rfl rfl rfl rfl rfl rfl rfl rfl hg hsrc
  | more g src ps src' hne _ ih =>
    subst hg hsrc
    cases fuel with
    | zero => simp at hfuel
    | succ fuel =>
      have hgen : (s.trial poly s.gen.pattern).gen = s.gen := by rw [CoreState.trial_eq]
      have hrandom : (s.trial poly s.gen.pattern).random = s.random := by rw [CoreState.trial_eq]
      rw [CoreState.runSweep, CoreState.sweepTick, if_neg hne,
        ih _ (by simp [hgen, hrandom]) (by simp [hgen, hrandom]) fuel (by simpa using hfuel), List.foldl_cons]
      set t := s.trial poly s.gen.pattern
      rw [CoreState.foldl_trial_eq poly ps t.advance, CoreState.foldl_trial_eq poly ps t]
      have hovf : ∀ (qs : List Pattern) (a b : CoreState n w), a.trials = b.trials → a.ovf = b.ovf →
          (qs.foldl (fun c p => c.trial poly p) a).ovf = (qs.foldl (fun c p => c.trial poly p) b).ovf := by
        intro qs
        induction qs with
        | nil => intro a b _ h; exact h
        | cons q qs ihq =>
          intro a b h1 h2
          exact ihq _ _ (by simp [CoreState.trial_eq, h1]) (by simp [CoreState.trial_eq, h1, h2])
      apply CoreState.ext_fields <;> try rfl
      exact hovf ps _ _ rfl rfl

/-- A sweep in progress keeps its generator until it has run as many trials as there are patterns left. -/
theorem CoreState.runSweep_gen_ne (poly : BitVec w) {g : Gen} {src src' : RandomSource} {ps : List Pattern}
    (h : Enumerates n g src ps src') (s : CoreState n w) (hg : s.gen = g) (hsrc : s.random = src) (j : Nat)
    (hj : j < ps.length) : (s.runSweep poly j).gen ≠ .none := by
  induction h generalizing s j with
  | done src => simp at hj
  | more g src ps src' hne _ ih =>
    subst hg hsrc
    cases j with
    | zero => exact hne
    | succ j =>
      have hgen : (s.trial poly s.gen.pattern).gen = s.gen := by rw [CoreState.trial_eq]
      have hrandom : (s.trial poly s.gen.pattern).random = s.random := by rw [CoreState.trial_eq]
      rw [CoreState.runSweep, CoreState.sweepTick, if_neg hne]
      exact ih _ (by simp [hgen, hrandom]) (by simp [hgen, hrandom]) j (by simpa using hj)

/-- A trial of a sweep in progress leaves SEQ alone. -/
@[simp] theorem CoreState.sweepTick_seq (poly : BitVec w) (s : CoreState n w) : (s.sweepTick poly).seq = s.seq := by
  unfold CoreState.sweepTick
  split
  · rfl
  · rw [CoreState.trial_eq]; rfl

/-! ### A whole sweep -/

/-- The patterns a sweep evaluates in a state. -/
def CoreState.sweepPatterns (sw : Sweep) (s : CoreState n w) : List Pattern := (sw.patterns n s.random).1

/-- Everything a sweep does (spec 43_collision_counter R98): both counters and OVF in closed form, R as the last trial
left it, the draws taken; FRAME, CSUM, TARGET, GETQ and the fault registers as before. -/
theorem CoreState.sweep_eq (poly : BitVec w) (sw : Sweep) (s : CoreState n w) :
    s.sweep poly sw = { s with
      r := lastChecksum poly s.frame s.r (s.sweepPatterns sw)
      trials := BitVec.ofNat 64 (sw.size n)
      collisions := BitVec.ofNat 64 (collisionCount poly s.frame s.target (s.sweepPatterns sw))
      ovf := decide (2 ^ 63 ≤ sw.size n)
      gen := .none
      random := (sw.patterns n s.random).2 } := by
  have hlen := length_patterns n sw s.random
  have hfold := CoreState.foldl_trial_eq poly (s.sweepPatterns sw) (s.sweepStart sw)
  have hovf := CoreState.foldl_trial_ovf poly (s.sweepPatterns sw) (s.sweepStart sw) 0 rfl (by simp)
  rw [CoreState.sweep, CoreState.runSweep_eq poly (enumerates_first n sw s.random) (s.sweepStart sw) rfl rfl
    (sw.size n) (Nat.le_of_eq hlen)]
  change ({ (s.sweepPatterns sw).foldl (fun c p => c.trial poly p) (s.sweepStart sw) with
    gen := .none, random := (sw.patterns n s.random).2 } : CoreState n w) = _
  rw [hfold, hovf]
  apply CoreState.ext_fields <;> simp [CoreState.sweepPatterns, hlen]

end Sys2Proof.Machine
end

