-- ==== Sys2Proof/Laws/Step.lean ====
section
/-!
SUPPORT. What the meaning of each command does to the registers, and what a step can do: the inversion lemma that
claims about every step are read from.
-/

namespace Sys2Proof.Machine

/-! ### The meanings -/

/-- The command's effect on the registers, whichever command it is. -/
def Instr.effect {n w : Nat} (poly : BitVec w) (i : Instr) (s : CoreState n w) : CoreState n w :=
  match i with
  | .nop => s.nop
  | .fget i => s.fget i (encode (.fget i))
  | .fflip i => s.fflip i (encode (.fflip i))
  | .frand => s.frand
  | .crc => s.crcCommand poly
  | .tgt => s.tgtCommand
  | .exh k => s.exh poly k
  | .rnd k cnt => s.rnd poly k cnt
  | .burst len => s.burst poly len (encode (.burst len))

/-- Every command completes in a next state that only its registers changed. -/
theorem exec_eq (i : Instr) (s : State) : exec i s = .next (s.mapCore (Instr.effect Config.poly i)) := by
  cases i <;> rfl

/-! ### The step -/

/-- What one step can do: reset; or the command it accepts, or that word's decode fault; or the next piece of a command
in progress; or nothing. -/
theorem step_cases (s : State) :
    (s.pins.rst = true ∧ step s = .next (s.sampled.mapCore CoreState.applyReset)) ∨
    (s.pins.rst = false ∧ s.seq = .idle ∧ s.pins.cmdValid = true ∧ ∃ i, decode s.pins.cmdWord = .ok i ∧
      step s = .next (s.sampled.mapCore fun c => Instr.effect Config.poly i c.accept)) ∨
    (s.pins.rst = false ∧ s.seq = .idle ∧ s.pins.cmdValid = true ∧ ∃ kind, decode s.pins.cmdWord = .error kind ∧
      step s = .next (s.sampled.mapCore fun c => c.accept.faultEntry kind s.pins.cmdWord)) ∨
    (s.pins.rst = false ∧ s.seq = .busy ∧
      step s = .next (s.sampled.mapCore (CoreState.busyTick Config.poly))) ∨
    (s.pins.rst = false ∧ (s.seq = .halt ∨ s.seq = .idle ∧ s.pins.cmdValid = false) ∧ step s = .next s.sampled) := by
  by_cases hrst : s.pins.rst = true
  · exact .inl ⟨hrst, by simp [step, hrst]⟩
  · rw [Bool.not_eq_true] at hrst
    cases hseq : s.seq with
    | idle =>
      by_cases hv : s.pins.cmdValid = true
      · cases hd : decode s.pins.cmdWord with
        | ok i =>
          refine .inr (.inl ⟨hrst, rfl, hv, i, rfl, ?_⟩)
          simp only [step, hrst, hseq, hv, runWord, hd, exec_eq]
          rfl
        | error kind =>
          refine .inr (.inr (.inl ⟨hrst, rfl, hv, kind, rfl, ?_⟩))
          simp only [step, hrst, hseq, hv, runWord, hd]
          rfl
      · rw [Bool.not_eq_true] at hv
        exact .inr (.inr (.inr (.inr ⟨hrst, .inr ⟨rfl, hv⟩, by simp [step, hrst, hseq, hv]⟩)))
    | busy => exact .inr (.inr (.inr (.inl ⟨hrst, rfl, by simp [step, hrst, hseq]⟩)))
    | halt => exact .inr (.inr (.inr (.inr ⟨hrst, .inl rfl, by simp [step, hrst, hseq]⟩)))

end Sys2Proof.Machine
end

