-- ==== Sys2Proof/Tests/Slice0.lean ====
section
/-!
SUPPORT. The model's own tests, expected results from spec 95_test_vectors and the encodings of 30_encoding, and for
every statement with hypotheses a witness that meets them.
-/

namespace Sys2Proof.Tests

open Sys2Proof.Machine

/-! ### WellFormed smoke: an ill-formed term for each check -/

theorem test_fget_argument_too_wide : ¬ (Instr.fget 256).WellFormed := by decide
theorem test_fflip_argument_too_wide : ¬ (Instr.fflip 256).WellFormed := by decide
theorem test_exh_argument_too_wide : ¬ (Instr.exh 256).WellFormed := by decide
theorem test_rnd_argument_too_wide : ¬ (Instr.rnd 256 0).WellFormed := by decide
theorem test_rnd_count_too_wide : ¬ (Instr.rnd 0 (2 ^ 48)).WellFormed := by decide
theorem test_burst_argument_too_wide : ¬ (Instr.burst 256).WellFormed := by decide
theorem test_widest_operands_fit : (Instr.rnd 255 (2 ^ 48 - 1)).WellFormed := by decide

/-! ### Decoding: words written out from spec 30_encoding R48, OP 63:56, ARG 55:48, CNT 47:0 -/

theorem test_decode_nop : decode 0b0000000000000000000000000000000000000000000000000000000000000000#64 = .ok .nop := by
  decide
theorem test_decode_fget :
    decode 0b0000000101010010000000000000000000000000000000000000000000000000#64 = .ok (.fget 82) := by decide
theorem test_decode_fflip :
    decode 0b0000001000000111000000000000000000000000000000000000000000000000#64 = .ok (.fflip 7) := by decide
theorem test_decode_frand :
    decode 0b0000001100000000000000000000000000000000000000000000000000000000#64 = .ok .frand := by decide
theorem test_decode_crc :
    decode 0b0000010000000000000000000000000000000000000000000000000000000000#64 = .ok .crc := by decide
theorem test_decode_tgt :
    decode 0b0000010100000000000000000000000000000000000000000000000000000000#64 = .ok .tgt := by decide
theorem test_decode_exh :
    decode 0b0000100000000101000000000000000000000000000000000000000000000000#64 = .ok (.exh 5) := by decide
theorem test_decode_rnd :
    decode 0b0000100100100000000000000000000000000000000011110100001001000000#64 = .ok (.rnd 32 1000000) := by decide
theorem test_decode_rnd_widest : decode 0x09FFFFFFFFFFFFFF#64 = .ok (.rnd 255 281474976710655) := by decide
theorem test_decode_burst :
    decode 0b0000101000001111000000000000000000000000000000000000000000000000#64 = .ok (.burst 15) := by decide

/-- The words of spec 95_test_vectors section 5 that spell no command. -/
theorem test_decode_faults :
    [0x0600000000000000#64, 0x0B00000000000000#64, 0xFFFFFFFFFFFFFFFF#64].map decode =
      [.error .illegalOp, .error .illegalOp, .error .illegalOp] ∧
    [0x0000000000000001#64, 0x0001000000000000#64, 0x0401000000000000#64, 0x0153000000000001#64,
      0x0805000000000001#64, 0x0A01000000000001#64].map decode = List.replicate 6 (.error .illegalField) := by decide

/-! ### A small CORE: the toy configuration of spec 95_test_vectors -/

/-- `POLY = 0b011` at `W = 3`. -/
def toyPoly : BitVec 3 := 0b011#3

/-- A frame from its digit string, index 0 leftmost (spec 00_scope R8). -/
def frameOfDigits (n : Nat) (ds : List Bool) : BitVec n := BitVec.ofNat n (Nat.ofBits fun i : Fin ds.length => ds[i])

/-- The frame `10110100`. -/
def toyFrame : BitVec 8 := frameOfDigits 8 [true, false, true, true, false, true, false, false]

/-- The toy CORE, a command accepted, with this frame and target. -/
def toy (f : BitVec 8) (target : BitVec 3) : CoreState 8 3 :=
  { CoreState.reset 8 3 with frame := f, target := target, seq := .busy }

/-- The two counters. -/
def counts (s : CoreState 8 3) : Nat × Nat := (s.trials.toNat, s.collisions.toNat)

theorem test_toy_crc_trace : (List.range 9).map (fun i => (crcAfter toyPoly toyFrame i).toNat) =
    [0, 3, 6, 4, 0, 0, 3, 6, 7] := by decide
theorem test_crc_step_drops_the_top_bit : crcStep toyPoly 0b100#3 true = 0b000#3 ∧
    crcStep toyPoly 0b100#3 false = 0b011#3 ∧ crcStep toyPoly 0b111#3 false = 0b101#3 := by decide
/-- Frame F3 of spec 95_test_vectors section 2, with the polynomial named there (a value the spec does not fix). -/
theorem test_ref_crc_of_f3 :
    crc 0x4599#15 (BitVec.ofNat 83 (((List.range 28).map fun j => 2 ^ (3 * j)).sum)) = 0x3D3E#15 := by decide +kernel

theorem test_fget_reads_index_two : (CoreState.fget 2 0 (toy toyFrame 0)).status = 0x09#8 := by decide
theorem test_fget_outside_halts : (CoreState.fget 8 0x0108000000000000#64 (toy toyFrame 0)).status = 0x12#8 := by decide
theorem test_fflip_last_index : (CoreState.fflip 7 0 (toy toyFrame 0)).frame =
    frameOfDigits 8 [true, false, true, true, false, true, false, true] := by decide
theorem test_fflip_outside_keeps_the_frame : (CoreState.fflip 8 0 (toy toyFrame 0)).frame = toyFrame := by decide
theorem test_frand_loads_the_draw :
    (CoreState.frand { toy 0 0 with random := ⟨[0b00101101, 5], 0⟩ }).frame = toyFrame := by decide
theorem test_crc_command : (CoreState.crcCommand toyPoly (toy toyFrame 0)).csum = 7 := by decide
theorem test_tgt_command : (CoreState.tgtCommand { toy toyFrame 0 with csum := 7 }).target = 7 := by decide
theorem test_exh_two : counts ((toy toyFrame 7).exh toyPoly 2) = (28, 1) := by decide +kernel
theorem test_exh_stale_target : counts ((toy (frameFlip toyFrame 7) 7).exh toyPoly 1) = (8, 2) := by decide +kernel
/-- `RND 2, 4` with the draws `{0,7} {1,2} {0,7} {3,4}`, which stand at 6, 7, 6, 18 in `exh(2)`. -/
theorem test_rnd_with_draws :
    counts (CoreState.rnd toyPoly 2 4 { toy toyFrame 7 with random := ⟨[6, 7, 6, 18], 0⟩ }) = (4, 2) := by decide +kernel
theorem test_rnd_draws_are_those_subsets :
    [6, 7, 18].map (subsetOfAnswer 8 2) = [[0, 7], [1, 2], [3, 4]] := by decide
theorem test_burst_four : counts ((toy toyFrame 7).burst toyPoly 4 0) = (20, 5) := by decide +kernel
theorem test_burst_one_halts :
    (CoreState.burst toyPoly 1 0x0A01000000000000#64 (toy toyFrame 7)).status = 0x42#8 := by decide
/-- While BUSY `cmd_ready` and `status[1:0]` are all that the ports show (spec 10_state R18, R28). -/
theorem test_ports_while_busy : (toy toyFrame 7).outputPorts = ⟨false, 0b00#2, none⟩ := by decide
/-- Every index of a pattern is flipped, not its first alone (spec 43_collision_counter R95). -/
theorem test_apply_flips_every_index : applyPattern toyFrame [0, 2, 7] =
    frameOfDigits 8 [false, false, false, true, false, true, false, true] := by decide
theorem test_nop_status : (CoreState.nop (toy toyFrame 7)).status = 0x01#8 := by decide

/-- Spec 95_test_vectors section 7. -/
theorem test_exh_three_of_five : exhPatterns 5 3 = [[0, 1, 2], [0, 1, 3], [0, 1, 4], [0, 2, 3], [0, 2, 4]] ++
    [[0, 3, 4], [1, 2, 3], [1, 2, 4], [1, 3, 4], [2, 3, 4]] := by decide
theorem test_burst_four_of_five : burstPatterns 5 4 = [[0, 3], [0, 1, 3], [0, 2, 3], [0, 1, 2, 3]] ++
    [[1, 4], [1, 2, 4], [1, 3, 4], [1, 2, 3, 4]] := by decide
/-- Spec 95_test_vectors section 4: the sizes that reach `2^63`. -/
theorem test_sweep_sizes : (Sweep.exh 5).size 83 = 29034396 ∧ (Sweep.exh 41).size 83 = 839455243105945545123660 ∧
    (Sweep.burst 15).size 83 = 565248 ∧ (Sweep.burst 60).size 83 < 2 ^ 63 ∧ 2 ^ 63 ≤ (Sweep.burst 61).size 83 := by
  decide +kernel

/-! ### Steps -/

theorem test_step_accepts_a_word : ∃ t, step (State.reset.withFetchWord 64 0x0253000000000000) = .next t ∧
    t.finfo = 0x0253000000000000#64 ∧ t.status = 0x12#8 := ⟨_, rfl, by decide, by decide⟩
theorem test_step_undefined_op : ∃ t, step (State.reset.withFetchWord 64 0x0700000000000000) = .next t ∧
    t.status = 0x22#8 := ⟨_, rfl, by decide⟩
theorem test_step_without_a_word : step State.reset = .next State.reset := by rfl
/-- The largest sweep is a next state too. -/
theorem test_step_long_sweep : ∃ t, step (State.reset.withFetchWord 64 0x0829000000000000) = .next t := ⟨_, rfl⟩

/-! ### The assembler and the pseudo-instructions -/

theorem test_assemble_rnd : assembleLine "RND 32, 1000000 ; noise".toList = some 0x09200000000F4240#64 := by
  decide +kernel
theorem test_assemble_refuses : ["EXH 256", "exh 5", "NOP 1", "RND 5", "FGET 0x", "JMP 3"].map
    (fun l => assembleLine l.toList) = List.replicate 6 none := by decide +kernel
theorem test_suite_length : Pseudo.suite.expand.length = 3 + 5 + 28 + 28 + 14 + 1 ∧
    expandLine "ODD 100000".toList = some (oddCommands 100000) := by decide +kernel

/-! ### Witnesses: states and operands that meet the statements' hypotheses -/

/-- OP, ARG and CNT of a word as DecoderFollowsItsPseudocode names them. -/
def fields (word : CmdWord) : Nat × Nat × Nat :=
  ((word >>> 56).toNat, (word >>> 48).toNat % 256, word.toNat % 2 ^ 48)

theorem witness_DecoderFollowsItsPseudocode :
    [0x0600000000000000#64, 0x0001000000000000#64, 0x0500000000000001#64, 0x0A02000000000001#64, 0#64].map fields =
      [(6, 0, 0), (0, 1, 0), (5, 0, 1), (10, 2, 1), (0, 0, 0)] ∧
    [0x0153000000000000#64, 0x02FF000000000000#64, 0x0300000000000000#64, 0x0400000000000000#64,
      0x0500000000000000#64, 0x08FF000000000000#64, 0x09FFFFFFFFFFFFFF#64, 0x0A00000000000000#64].map fields =
      [(1, 83, 0), (2, 255, 0), (3, 0, 0), (4, 0, 0), (5, 0, 0), (8, 255, 0), (9, 255, 2 ^ 48 - 1), (10, 0, 0)] := by
  decide
theorem witness_EncodeDecodeRoundTrip : decode (encode (.rnd 255 (2 ^ 48 - 1))) = .ok (.rnd 255 (2 ^ 48 - 1)) := by
  decide
theorem witness_OpcodeMapSelectsTheCommand :
    (⟨.exh, 0x0800000000000000#64, 0xFF00FFFFFFFFFFFF#64⟩ : OpcodeRow) ∈ opcodeTable ∧
    0x08FF000000000000#64 &&& 0xFF00FFFFFFFFFFFF#64 = 0x0800000000000000#64 := by decide

/-- The reset state with pins that present a word. -/
def presented (word : CmdWord) : State := { State.reset with host := [HostPins.present word] }

theorem witness_NopChangesNoRegister : (presented 0#64).seq = .idle ∧
    (presented 0#64).host = HostPins.present 0#64 :: [] ∧ 1#64 >>> 56 = 0x00#64 ∧ 1#64 ≠ 0#64 := by decide
theorem witness_FgetReadsOneBit : 82 < 83 ∧ 83 ≤ 83 ∧ 0x0152000000000001#64 >>> 56 = 0x01#64 ∧
    BitVec.toNat 0x0152000000000001#64 % 2 ^ 48 ≠ 0 := by decide
theorem witness_FflipTogglesOneBit : 0 < 83 ∧ (1 : Nat) ≠ 0 ∧ 83 ≤ 255 ∧ 0x0200800000000000#64 >>> 56 = 0x02#64 ∧
    BitVec.toNat 0x0200800000000000#64 % 2 ^ 48 ≠ 0 := by decide
theorem witness_FrandLoadsOneDraw : 82 < 83 ∧ 0x0301000000000000#64 >>> 56 = 0x03#64 ∧
    BitVec.toNat 0x0301000000000000#64 % 2 ^ 56 ≠ 0 := by decide
theorem witness_CrcStepBitByBit : 0 < 3 ∧ 1 ≤ 2 ∧ 2 < 3 ∧ (0b1011#4).setWidth 3 = toyPoly := by decide
theorem witness_CrcLatchesTheChecksum : (∃ t u : State, exec .crc State.reset = .next t ∧ exec .crc t = .next u) ∧
    State.reset.frame = 0 ∧ 0x0400000000000001#64 >>> 56 = 0x04#64 ∧ BitVec.toNat 0x0400000000000001#64 % 2 ^ 56 ≠ 0 :=
  ⟨⟨_, _, rfl, rfl⟩, rfl, by decide, by decide⟩
theorem witness_TgtCopiesTheChecksum : 0x05FF000000000000#64 >>> 56 = 0x05#64 ∧
    BitVec.toNat 0x05FF000000000000#64 % 2 ^ 56 ≠ 0 := by decide
theorem witness_SingleBitErrorsNeverCollide :
    toyPoly.getLsbD 0 = true ∧ (toy toyFrame 7).target = crc toyPoly (toy toyFrame 7).frame := by decide
theorem witness_ShortBurstsNeverCollide : toyPoly.getLsbD 0 = true ∧
    (toy toyFrame 7).target = crc toyPoly (toy toyFrame 7).frame ∧ 2 ≤ 2 ∧ 2 ≤ 3 ∧ 3 ≤ 3 := by decide
theorem witness_ExhListsEveryCombinationOnce : [0, 1] ∈ exhPatterns 4 2 ∧ 4 < 5 := by decide
theorem witness_CombinationSuccessor : [0, 3].length ≤ 4 ∧ 0 < [0, 3].length ∧
    [0, 3].getD 0 0 < 4 - [0, 3].length + 0 ∧
    (∀ j, 0 < j → j < [0, 3].length → ¬ [0, 3].getD j 0 < 4 - [0, 3].length + j) ∧
    (∀ j, j < [2, 3].length → ¬ [2, 3].getD j 0 < 4 - [2, 3].length + j) ∧ 1 ≤ 4 ∧ 4 ≤ 4 := by
  refine ⟨by decide, by decide, by decide, ?_, ?_, by decide, by decide⟩
  · intro j h1 h2
    obtain rfl : j = 1 := by simp at h2; omega
    decide
  · intro j h
    simp at h
    rcases (show j = 0 ∨ j = 1 by omega) with rfl | rfl <;> decide
theorem witness_DrawsAreExactlyTheSubsets : 8 ≤ 8 ∧ [0, 7].length = 2 ∧ ValidPattern 8 [0, 7] ∧
    [1, 2] ∈ (drawPatterns 8 2 2 ⟨[6, 7], 0⟩).1 ∧
    ∀ p ∈ [[0, 7], [1, 2], [0, 7]], p.length = 2 ∧ ValidPattern 8 p := by decide
theorem witness_TrialCountsOnePattern : [0, 2, 7].Nodup ∧ 7 < 8 ∧ 7 ∈ [0, 2, 7] ∧ 6 ∉ [0, 2, 7] := by decide
theorem witness_BurstPatternIndices : 2 ≤ 2 ∧ 0 < 2 ^ (2 - 2) ∧ 2 ≤ 4 ∧ 3 < 2 ^ (4 - 2) ∧ 1 < 4 - 2 ∧
    Nat.testBit 3 1 = true := by decide
theorem witness_BurstListsEveryPairOnce : 2 ≤ 2 ∧ 2 ≤ 5 ∧ 2 ≤ 5 ∧ 5 ≤ 5 ∧ 5 < 6 ∧
    burstPattern 4 1 3 ∈ burstPatterns 5 4 ∧ 1 ≤ 5 - 4 ∧ 3 < 2 ^ (4 - 2) ∧ 2 < 2 ^ (4 - 2) - 1 ∧
    ¬ 3 < 2 ^ (4 - 2) - 1 ∧ 0 < 5 - 4 ∧ ¬ 1 < 5 - 4 := by decide
theorem witness_SweepsStayInsideTheFrame : [6, 7] ∈ ((Sweep.exh 2).patterns 8 ⟨[], 0⟩).1 ∧
    [0, 7] ∈ ((Sweep.rnd 2 1).patterns 8 ⟨[6], 0⟩).1 ∧ [6, 7] ∈ ((Sweep.burst 2).patterns 8 ⟨[], 0⟩).1 := by decide
theorem witness_ExhSweepResult : 83 < 84 ∧ 0x0801000000000001#64 >>> 56 = 0x08#64 ∧
    BitVec.toNat 0x0801000000000001#64 % 2 ^ 48 ≠ 0 := by decide
theorem witness_RndSweepResult : 83 ≤ 83 ∧ 2 ^ 48 - 1 < 2 ^ 48 ∧ 83 < 84 ∧ 0x09FF000000000000#64 >>> 56 = 0x09#64 := by
  decide
theorem witness_BurstSweepResult : 1 < 2 ∧ 2 ≤ 2 ∧ 2 ≤ 83 ∧ 2 ≤ 83 ∧ 83 ≤ 83 ∧ 83 < 84 ∧
    0x0A02000000000001#64 >>> 56 = 0x0A#64 ∧ BitVec.toNat 0x0A02000000000001#64 % 2 ^ 48 ≠ 0 := by decide
theorem witness_DegenerateSweepsReportZero : 83 < 84 ∧ (Instr.rnd 84 100000 = .exh 84 ∨
    Instr.rnd 84 100000 = .rnd 84 100000 ∨ Instr.rnd 84 100000 = .burst 84) ∧ (Sweep.burst 84 = .exh 84 ∨
    Sweep.burst 84 = .rnd 84 0 ∨ Sweep.burst 84 = .burst 84) := by decide
theorem witness_TrialsRestoreTheFrame : (Instr.burst 83).opcode ∈ [Opcode.exh, .rnd, .burst] ∧
    ∃ t, exec (.burst 83) State.reset = .next t := ⟨by decide, _, rfl⟩
theorem witness_CollisionCriterion : (toy toyFrame 7).target = crc toyPoly (toy toyFrame 7).frame := by decide

/-- The reset state with a reference frame and its checksum as target. -/
def reference (f : BitVec 83) : State := { State.reset with frame := f, target := crc Config.poly f }

theorem reference_target (f : BitVec 83) : (reference f).target = crc Config.poly (reference f).frame := rfl

theorem witness_CountsDoNotDependOnTheReference : (reference 0).frame ≠ (reference 1).frame ∧
    (reference 0).target = crc Config.poly (reference 0).frame ∧
    (reference 1).target = crc Config.poly (reference 1).frame ∧ 2 ≤ 2 ∧
    ∃ t t', exec (.burst 2) (reference 0) = .next t ∧ exec (.burst 2) (reference 1) = .next t' :=
  ⟨show 0#83 ≠ 1#83 by decide, reference_target 0, reference_target 1, by decide, _, _, exec_eq _ _, exec_eq _ _⟩
theorem witness_TrialStepsMakeTheSweep : let s : State := { State.reset with seq := .busy }
    s.host = [] ∧ s.seq = .busy ∧ (∃ t, exec (.exh 84) s = .next t) ∧ (∃ t, exec (.rnd 83 1) s = .next t) ∧
      (∃ t, exec (.burst 2) s = .next t) ∧ (∃ t, exec (.rnd 84 1) s = .next t) ∧ ∃ t, exec (.burst 84) s = .next t :=
  ⟨rfl, rfl, ⟨_, exec_eq _ _⟩, ⟨_, exec_eq _ _⟩, ⟨_, exec_eq _ _⟩, ⟨_, exec_eq _ _⟩, _, exec_eq _ _⟩
theorem witness_OnlyTheNamedCommandsWrite : ∃ t, exec (.fget 83) State.reset = .next t ∧ t.seq = .halt :=
  ⟨_, rfl, by decide⟩
theorem witness_StepRunsTheDecodedCommand : (presented 0x0152000000000000#64).seq = .idle ∧
    (presented 0x0152000000000000#64).host = HostPins.present 0x0152000000000000#64 :: [] ∧
    decode 0x0152000000000000#64 = .ok (.fget 82) ∧ State.reset.seq = .idle ∧ State.reset.pins.rst = false ∧
    State.reset.pins.cmdValid = false := by decide
theorem witness_StatusBits : State.reset.seq = .idle ∧ (toy toyFrame 7).seq = .busy ∧
    (CoreState.fget 8 0 (toy toyFrame 0)).seq = .halt := by decide
theorem witness_FaultsArePrecise : [0x0153000000000000#64, 0x0600000000000000#64, 0x0A01000000000001#64,
    0x0A01000000000000#64, 0x0152000000000000#64].map (faultOf 83) =
    [some .idxOob, some .illegalOp, some .illegalField, some .illegalArg, none] := by decide
theorem witness_FaultPriority : fields 0x01C8000000000001#64 = (1, 200, 1) := by decide

/-- A CORE in HALT, with the given pins to come. -/
def haltedWith (pins : HostPins) : State :=
  { State.reset with seq := .halt, fcode := 2, finfo := 0x0600000000000000#64, host := [pins] }

theorem witness_HaltIsLeftByResetAlone : (haltedWith (HostPins.present 0#64)).seq = .halt ∧
    (haltedWith (HostPins.present 0#64)).pins.rst = false ∧ (haltedWith HostPins.reset).seq = .halt ∧
    (haltedWith HostPins.reset).pins.rst = true := by decide
theorem witness_UnreadyCoreIgnoresWords : (haltedWith HostPins.quiet).seq ≠ .idle := by decide
theorem witness_ResetFromAnyState : (haltedWith HostPins.reset).pins.rst = true := by decide
theorem witness_EveryStepCompletes : (presented 0#64).seq ≠ .busy ∧ ∃ t, step (presented 0#64) = .next t :=
  ⟨by decide, _, rfl⟩
theorem witness_StepKeepsFaultsAgreeing : (haltedWith HostPins.quiet).FaultsAgree ∧
    ∃ t, step (haltedWith HostPins.quiet) = .next t :=
  ⟨⟨fun h => absurd rfl h, fun _ => ⟨.illegalOp, by decide, rfl⟩⟩, _, rfl⟩

/-- A BUSY CORE on the last pattern of `RND 2, 2`, one trial counted. -/
def midSweep : State :=
  { State.reset with seq := .busy, trials := 1, collisions := 1, gen := .rnd 2 1 [0, 82] }

theorem witness_StepKeepsCountersAgreeing : midSweep.CountersAgree ∧ ∃ t, step midSweep = .next t :=
  ⟨fun _ => by decide, _, rfl⟩
theorem witness_StepKeepsTheGeneratorInRange : midSweep.GenAgrees ∧ (∃ t, step midSweep = .next t) ∧
    82 ∈ midSweep.gen.pattern :=
  ⟨⟨fun h => absurd rfl h, by decide, by decide, rfl, by decide⟩, ⟨_, rfl⟩, by decide⟩

end Sys2Proof.Tests
end

section
/-!
What the host sees in STATUS, its bits and its value (spec 10_state R20, R26, R28; 95_test_vectors section 5), and the values
of reset (spec 10_state R29).
-/

namespace Sys2Proof.Machine

variable {n w : Nat}

/-- STATUS is FCODE with the four flags put below it one after another. -/
theorem CoreState.status_eq_concat (s : CoreState n w) :
    s.status = (((s.fcode.concat s.getq).concat s.ovf).concat s.halted).concat s.ready := rfl

theorem CoreState.status_extract_fcode (s : CoreState n w) : s.status.extractLsb' 4 4 = s.fcode := by
  ext i hi
  simp [CoreState.status_eq_concat, BitVec.getLsbD_concat, BitVec.getLsbD_eq_getElem hi]

theorem CoreState.ready_eq_decide (s : CoreState n w) : s.ready = decide (s.seq = .idle) := by
  cases hseq : s.seq <;> simp [CoreState.ready, hseq]

theorem CoreState.halted_eq_decide (s : CoreState n w) : s.halted = decide (s.seq = .halt) := by
  cases hseq : s.seq <;> simp [CoreState.halted, hseq]

theorem CoreState.status_getLsbD_zero (s : CoreState n w) : s.status.getLsbD 0 = decide (s.seq = .idle) := by
  rw [← s.ready_eq_decide]; simp [CoreState.status_eq_concat]

theorem CoreState.status_getLsbD_one (s : CoreState n w) : s.status.getLsbD 1 = decide (s.seq = .halt) := by
  rw [← s.halted_eq_decide]; simp [CoreState.status_eq_concat]

/-- HALT and READY are the two low bits of STATUS. -/
theorem CoreState.status_extract_seqBits (s : CoreState n w) :
    s.status.extractLsb' 0 2 = BitVec.ofBool (decide (s.seq = .halt)) ++ BitVec.ofBool (decide (s.seq = .idle)) := by
  refine BitVec.eq_of_getLsbD_eq fun i hi => ?_
  obtain rfl | rfl : i = 0 ∨ i = 1 := by omega
  · rw [BitVec.getLsbD_extractLsb', BitVec.getLsbD_append, s.status_getLsbD_zero]; simp
  · rw [BitVec.getLsbD_extractLsb', BitVec.getLsbD_append, s.status_getLsbD_one]; simp

/-- STATUS as a number. -/
theorem CoreState.toNat_status (s : CoreState n w) :
    s.status.toNat =
      16 * s.fcode.toNat + 8 * s.getq.toNat + 4 * s.ovf.toNat + 2 * s.halted.toNat + s.ready.toNat := by
  simp only [CoreState.status_eq_concat, BitVec.toNat_concat]
  omega

/-- The zero frame has checksum 0 (spec 41_crcengine R72). -/
theorem crc_zero (poly : BitVec w) : crc poly 0#n = 0#w :=
  crcAfter_eq_zero poly 0#n n (fun i _ => frameRead_zero i) n (Nat.le_refl n)

/-- Settles O43: each value is read off `CoreState.reset`, and the zero frame has checksum 0. -/
theorem resetValues : Obligations.ResetValues :=
  ⟨rfl, rfl, rfl, rfl, rfl, rfl, rfl, rfl, rfl, rfl, rfl, by decide, (crc_zero Config.poly).symm⟩

/-- Settles O44: the bits are those of the concatenation, the ports are read off in each SEQ state. -/
theorem statusBits : Obligations.StatusBits := by
  refine ⟨by decide, fun n w s => ⟨s.status_getLsbD_zero, s.status_getLsbD_one, ?ovf, ?getq, s.status_extract_fcode,
    ?ready, ?notBoth, ?idle, ?busy, ?halt⟩⟩
  case ovf | getq => simp [CoreState.status_eq_concat]
  case ready => rw [s.status_getLsbD_zero]; exact s.ready_eq_decide
  case notBoth =>
    rw [s.status_getLsbD_zero, s.status_getLsbD_one]
    cases s.seq <;> rfl
  case idle | busy | halt =>
    intro hseq
    simp [CoreState.outputPorts, s.status_extract_seqBits, CoreState.resultPorts, CoreState.cmdReady,
      s.ready_eq_decide, hseq]

/-- Settles O45: fault entry writes FCODE and HALT and keeps the two flags. -/
theorem statusAfterAFault : Obligations.StatusAfterAFault := by
  intro n w s kind word
  have hhalted : (s.faultEntry kind word).halted = true := rfl
  have hready : (s.faultEntry kind word).ready = false := rfl
  simp only [CoreState.toNat_status, hhalted, hready, CoreState.faultEntry_fcode, CoreState.faultEntry_getq,
    CoreState.faultEntry_ovf]
  cases s.ovf <;> cases s.getq <;> simp <;> omega

end Sys2Proof.Machine
end

section
/-!
What a command does, said once: its own check comes first and raises its fault, else it does its work and completes
(spec 44_control R112, 60_exceptions R128). The work alone says which registers a command writes.
-/

namespace Sys2Proof.Machine

variable {n w : Nat}

/-- The fault a command's own check raises, on a CORE with a frame of `n` bits (spec 60_exceptions R124, R127). -/
def Instr.check (n : Nat) : Instr → Option FaultKind
  | .fget i | .fflip i => if i < n then none else some .idxOob
  | .burst len => if len < 2 then some .illegalArg else none
  | .nop | .frand | .crc | .tgt | .exh _ | .rnd _ _ => none

/-- What a command that passes its check does to the registers before it completes. -/
def Instr.work (poly : BitVec w) (i : Instr) (s : CoreState n w) : CoreState n w :=
  match i with
  | .nop => s
  | .fget i => { s with getq := frameRead s.frame i }
  | .fflip i => { s with frame := frameFlip s.frame i }
  | .frand => { s with frame := frameOfAnswer n s.random.draw.1, random := s.random.draw.2 }
  | .crc => { s with r := crc poly s.frame, csum := crc poly s.frame }
  | .tgt => { s with target := s.csum }
  | .exh k => s.sweep poly (.exh k)
  | .rnd k cnt => s.sweep poly (.rnd k cnt)
  | .burst len => s.sweep poly (.burst len)

theorem Instr.effect_of_check_some {i : Instr} {kind : FaultKind} (poly : BitVec w) (s : CoreState n w)
    (h : Instr.check n i = some kind) : Instr.effect poly i s = s.faultEntry kind (encode i) := by
  cases i with
  | fget i | fflip i =>
    have hi : ¬ i < n := fun hi => by simp [Instr.check, hi] at h
    obtain rfl : kind = .idxOob := by simpa [Instr.check, hi] using h.symm
    exact if_neg hi
  | burst len =>
    have hlen : len < 2 := by by_contra hlen; simp [Instr.check, hlen] at h
    obtain rfl : kind = .illegalArg := by simpa [Instr.check, hlen] using h.symm
    exact if_pos hlen
  | nop | frand | crc | tgt | exh k | rnd k cnt => simp [Instr.check] at h

theorem Instr.effect_of_check_none {i : Instr} (poly : BitVec w) (s : CoreState n w)
    (h : Instr.check n i = none) : Instr.effect poly i s = (Instr.work poly i s).complete := by
  cases i with
  | fget i | fflip i =>
    have hi : i < n := by by_contra hi; simp [Instr.check, hi] at h
    exact if_pos hi
  | burst len =>
    have hlen : ¬ len < 2 := fun hlen => by simp [Instr.check, hlen] at h
    exact if_neg hlen
  | nop | frand | crc | tgt | exh k | rnd k cnt => rfl

/-- A property that fault entry and the completed work both have is the command's. -/
theorem Instr.effect_induction {P : CoreState n w → Prop} (poly : BitVec w) (i : Instr) (s : CoreState n w)
    (hfault : ∀ kind, Instr.check n i = some kind → P (s.faultEntry kind (encode i)))
    (hwork : Instr.check n i = none → P (Instr.work poly i s).complete) : P (Instr.effect poly i s) := by
  cases h : Instr.check n i with
  | some kind => rw [Instr.effect_of_check_some poly s h]; exact hfault kind h
  | none => rw [Instr.effect_of_check_none poly s h]; exact hwork h

/-! ### What a sweep keeps -/

section
variable (poly : BitVec w) (sw : Sweep) (s : CoreState n w)

@[simp] theorem CoreState.sweep_frame : (s.sweep poly sw).frame = s.frame := by rw [CoreState.sweep_eq]

@[simp] theorem CoreState.sweep_csum : (s.sweep poly sw).csum = s.csum := by rw [CoreState.sweep_eq]

@[simp] theorem CoreState.sweep_target : (s.sweep poly sw).target = s.target := by rw [CoreState.sweep_eq]

@[simp] theorem CoreState.sweep_getq : (s.sweep poly sw).getq = s.getq := by rw [CoreState.sweep_eq]

@[simp] theorem CoreState.sweep_fcode : (s.sweep poly sw).fcode = s.fcode := by rw [CoreState.sweep_eq]

@[simp] theorem CoreState.sweep_finfo : (s.sweep poly sw).finfo = s.finfo := by rw [CoreState.sweep_eq]

@[simp] theorem CoreState.sweep_gen : (s.sweep poly sw).gen = .none := by rw [CoreState.sweep_eq]

/-- EXH and BURST take no draw. -/
theorem CoreState.sweep_random (h : ∀ k cnt, sw ≠ .rnd k cnt) : (s.sweep poly sw).random = s.random := by
  rw [CoreState.sweep_eq]
  cases sw with
  | exh k | burst len => rfl
  | rnd k cnt => exact absurd rfl (h k cnt)

end

/-! ### Which registers the work of a command writes -/

section
variable (poly : BitVec w) {i : Instr} (s : CoreState n w)

theorem Instr.work_frame (hflip : ∀ j, i ≠ .fflip j) (hrand : i ≠ .frand) :
    (Instr.work poly i s).frame = s.frame := by
  cases i with
  | fflip j => exact absurd rfl (hflip j)
  | frand => exact absurd rfl hrand
  | nop | fget j | crc | tgt => rfl
  | exh k | rnd k cnt | burst len => exact CoreState.sweep_frame poly _ s

theorem Instr.work_r (h : i.opcode ∉ [.crc, .exh, .rnd, .burst]) : (Instr.work poly i s).r = s.r := by
  cases i with
  | nop | fget j | fflip j | frand | tgt => rfl
  | crc | exh k | rnd k cnt | burst len => simp [Instr.opcode] at h

theorem Instr.work_csum (h : i ≠ .crc) : (Instr.work poly i s).csum = s.csum := by
  cases i with
  | crc => exact absurd rfl h
  | nop | fget j | fflip j | frand | tgt => rfl
  | exh k | rnd k cnt | burst len => exact CoreState.sweep_csum poly _ s

theorem Instr.work_target (h : i ≠ .tgt) : (Instr.work poly i s).target = s.target := by
  cases i with
  | tgt => exact absurd rfl h
  | nop | fget j | fflip j | frand | crc => rfl
  | exh k | rnd k cnt | burst len => exact CoreState.sweep_target poly _ s

theorem Instr.work_counters (h : i.opcode ∉ [.exh, .rnd, .burst]) :
    (Instr.work poly i s).trials = s.trials ∧ (Instr.work poly i s).collisions = s.collisions ∧
      (Instr.work poly i s).ovf = s.ovf ∧ (Instr.work poly i s).gen = s.gen := by
  cases i with
  | nop | fget j | fflip j | frand | crc | tgt => exact ⟨rfl, rfl, rfl, rfl⟩
  | exh k | rnd k cnt | burst len => simp [Instr.opcode] at h

theorem Instr.work_getq (h : ∀ j, i ≠ .fget j) : (Instr.work poly i s).getq = s.getq := by
  cases i with
  | fget j => exact absurd rfl (h j)
  | nop | fflip j | frand | crc | tgt => rfl
  | exh k | rnd k cnt | burst len => exact CoreState.sweep_getq poly _ s

theorem Instr.work_fault_registers (i : Instr) :
    (Instr.work poly i s).fcode = s.fcode ∧ (Instr.work poly i s).finfo = s.finfo := by
  cases i with
  | nop | fget j | fflip j | frand | crc | tgt => exact ⟨rfl, rfl⟩
  | exh k | rnd k cnt | burst len => exact ⟨CoreState.sweep_fcode poly _ s, CoreState.sweep_finfo poly _ s⟩

theorem Instr.work_random (hrand : i ≠ .frand) (hrnd : ∀ k cnt, i ≠ .rnd k cnt) :
    (Instr.work poly i s).random = s.random := by
  cases i with
  | frand => exact absurd rfl hrand
  | rnd k cnt => exact absurd rfl (hrnd k cnt)
  | nop | fget j | fflip j | crc | tgt => rfl
  | exh k | burst len => exact CoreState.sweep_random poly _ s (by simp)

/-- A command that starts with GEN absent ends so: a sweep runs to the end of its sequence. -/
theorem Instr.work_gen_none (i : Instr) (h : s.gen = .none) : (Instr.work poly i s).gen = .none := by
  cases i with
  | nop | fget j | fflip j | frand | crc | tgt => exact h
  | exh k | rnd k cnt | burst len => exact CoreState.sweep_gen poly _ s

end

/-- Settles O36: a fault writes the fault registers alone, and otherwise the command's work says what is written. -/
theorem onlyTheNamedCommandsWrite : Obligations.OnlyTheNamedCommandsWrite := by
  intro i s t h
  obtain rfl : s.mapCore (Instr.effect Config.poly i) = t := by simpa [exec_eq] using h
  simp only [State.mapCore_toCoreState, State.mapCore_host]
  cases hcheck : Instr.check 83 i with
  | some kind => simp [Instr.effect_of_check_some Config.poly s.toCoreState hcheck]
  | none =>
    rw [Instr.effect_of_check_none Config.poly s.toCoreState hcheck]
    exact ⟨Instr.work_frame Config.poly _, Instr.work_r Config.poly _, Instr.work_csum Config.poly _,
      Instr.work_target Config.poly _, Instr.work_counters Config.poly _, Instr.work_getq Config.poly _,
      fun _ => Instr.work_fault_registers Config.poly _ i, Instr.work_random Config.poly _, trivial⟩

end Sys2Proof.Machine
end

section
/-!
An accepted word is the word of the command it decodes to, so the FINFO that a command's own check writes is the word
that was presented (spec 60_exceptions R125; log 12), and it raises the fault that the check raised.
-/

namespace Sys2Proof.Machine

/-- A word that decodes to a command is that command's word: no bit of it is ignored (spec 30_encoding R50, R57). -/
theorem encode_of_decode {word : CmdWord} {i : Instr} (h : decode word = .ok i) : encode i = word := by
  unfold decode at h
  split at h
  · cases h
  · rename_i o ho
    split at h
    · cases h
    · rename_i hreserved
      cases h
      have hfields : encode (o.instr (argField word) (cntField word)) =
          packWord o.bits (argField word) (cntField word) := by
        cases o <;>
          simp_all [encode, Instr.opcode, Instr.argOperand, Instr.cntOperand, Opcode.instr, reservedSet,
            Opcode.usesArg, Opcode.usesCnt]
      rw [hfields, Opcode.bits_of_ofBits ho, packWord_fields]

theorem faultOf_of_decode_error {n : Nat} {word : CmdWord} {kind : FaultKind} (h : decode word = .error kind) :
    faultOf n word = some kind := by
  simp [faultOf, h]

/-- A word that decodes raises the fault of its command's own check, if that raises one. -/
theorem faultOf_of_decode_ok {n : Nat} {word : CmdWord} {i : Instr} (h : decode word = .ok i) :
    faultOf n word = Instr.check n i := by
  cases i <;> simp [faultOf, h, Instr.check]

end Sys2Proof.Machine
end

section
/-!
The invariants at reset, and the shape of every proof that a step keeps one.
-/

namespace Sys2Proof.Machine

/-- A property of the registers is kept by every step when reset establishes it, and an accepted command, a decode
fault and a piece of a command in progress each keep it. -/
theorem step_keeps {P : CoreState Config.frameLen Config.crcWidth → Prop}
    (hreset : ∀ c : CoreState Config.frameLen Config.crcWidth, P c.applyReset)
    (hcommand : ∀ c word i, c.seq = .idle → P c → decode word = .ok i → P (Instr.effect Config.poly i c.accept))
    (hfault : ∀ c word kind, c.seq = .idle → P c → decode word = .error kind → P (c.accept.faultEntry kind word))
    (hbusy : ∀ c, c.seq = .busy → P c → P (c.busyTick Config.poly))
    {s t : State} (hs : P s.toCoreState) (h : step s = .next t) : P t.toCoreState := by
  rcases step_cases s with
    ⟨-, he⟩ | ⟨-, hseq, -, i, hd, he⟩ | ⟨-, hseq, -, kind, hd, he⟩ | ⟨-, hseq, he⟩ | ⟨-, -, he⟩ <;>
    cases he.symm.trans h
  · exact hreset _
  · exact hcommand _ _ i hseq hs hd
  · exact hfault _ _ kind hseq hs hd
  · exact hbusy _ hseq hs
  · exact hs

section
variable {n w : Nat}

theorem CoreState.reset_inv (n w : Nat) : (CoreState.reset n w).Inv where
  faults := ⟨fun _ => ⟨rfl, rfl⟩, fun h => by simp [CoreState.reset] at h⟩
  counters := fun _ => ⟨by simp [CoreState.reset], by simp [CoreState.reset]⟩
  gen := ⟨fun _ => rfl, trivial⟩

theorem CoreState.applyReset_inv (s : CoreState n w) : s.applyReset.Inv where
  faults := ⟨(CoreState.reset_inv n w).faults.running, (CoreState.reset_inv n w).faults.halted⟩
  counters := (CoreState.reset_inv n w).counters
  gen := ⟨(CoreState.reset_inv n w).gen.absent, (CoreState.reset_inv n w).gen.valid⟩

end

/-- Settles O48, by the invariants of the reset values at any size. -/
theorem resetMeetsTheInvariants : Obligations.ResetMeetsTheInvariants := CoreState.reset_inv _ _

end Sys2Proof.Machine
end

section
/-!
HALT, FCODE and FINFO agree after every step (spec 10_state R21, R22; 60_exceptions R121, R125).
-/

namespace Sys2Proof.Machine

variable {n w : Nat}

theorem CoreState.faultsAgree_of_running {s : CoreState n w} (hseq : s.seq ≠ .halt) (hfcode : s.fcode = 0)
    (hfinfo : s.finfo = 0) : s.FaultsAgree :=
  ⟨fun _ => ⟨hfcode, hfinfo⟩, fun h => absurd h hseq⟩

theorem CoreState.faultsAgree_faultEntry {kind : FaultKind} {word : CmdWord} (s : CoreState n w)
    (h : faultOf n word = some kind) : (s.faultEntry kind word).FaultsAgree :=
  ⟨fun hrun => absurd rfl hrun, fun _ => ⟨kind, h, rfl⟩⟩

/-- A decoded command either raises its word's fault, or leaves the fault registers as they were. -/
theorem Instr.effect_faultsAgree {word : CmdWord} {i : Instr} (poly : BitVec w) (s : CoreState n w)
    (hd : decode word = .ok i) (hfcode : s.fcode = 0) (hfinfo : s.finfo = 0) :
    (Instr.effect poly i s).FaultsAgree := by
  refine Instr.effect_induction poly i s (fun kind hcheck => ?_) fun _ => ?_
  · rw [encode_of_decode hd]
    exact CoreState.faultsAgree_faultEntry s ((faultOf_of_decode_ok hd).trans hcheck)
  · obtain ⟨hcode, hinfo⟩ := Instr.work_fault_registers poly s i
    exact CoreState.faultsAgree_of_running (by simp) (hcode.trans hfcode) (hinfo.trans hfinfo)

@[simp] theorem CoreState.sweepTick_fcode (poly : BitVec w) (s : CoreState n w) :
    (s.sweepTick poly).fcode = s.fcode := by
  unfold CoreState.sweepTick
  split
  · rfl
  · rw [CoreState.advance_fcode, CoreState.trial_eq]

@[simp] theorem CoreState.sweepTick_finfo (poly : BitVec w) (s : CoreState n w) :
    (s.sweepTick poly).finfo = s.finfo := by
  unfold CoreState.sweepTick
  split
  · rfl
  · rw [CoreState.advance_finfo, CoreState.trial_eq]

/-- A piece of a command in progress raises no fault. -/
theorem CoreState.busyTick_faultsAgree (poly : BitVec w) (s : CoreState n w) (hseq : s.seq = .busy)
    (h : s.FaultsAgree) : (s.busyTick poly).FaultsAgree := by
  obtain ⟨hfcode, hfinfo⟩ := h.running (by simp [hseq])
  unfold CoreState.busyTick
  split
  · exact CoreState.faultsAgree_of_running (by simp) hfcode hfinfo
  · exact CoreState.faultsAgree_of_running (by simp [hseq]) (by simp [hfcode]) (by simp [hfinfo])

/-- Settles O49: a fault is entered with the word that raises it, and nothing else writes the fault registers. -/
theorem stepKeepsFaultsAgreeing : Obligations.StepKeepsFaultsAgreeing := by
  intro s t
  refine step_keeps (P := CoreState.FaultsAgree) ?_ ?_ ?_ ?_
  · exact fun c => c.applyReset_inv.faults
  · intro c word i hseq hc hd
    obtain ⟨hfcode, hfinfo⟩ := hc.running (by simp [hseq])
    exact Instr.effect_faultsAgree Config.poly c.accept hd hfcode hfinfo
  · exact fun c word kind _ _ hd => CoreState.faultsAgree_faultEntry c.accept (faultOf_of_decode_error hd)
  · exact CoreState.busyTick_faultsAgree Config.poly

end Sys2Proof.Machine
end

section
/-!
Without OVF, COLLISIONS is at most TRIALS and TRIALS below `2^63`, after every step (spec 10_state R16, R17). A trial
counts in TRIALS whenever it counts in COLLISIONS, and OVF shows the trial that takes TRIALS to `2^63`.
-/

namespace Sys2Proof.Machine

variable {n w : Nat}

/-- Counting a trial while its number stays below `2^63` neither wraps nor passes. -/
theorem counters_succ_le {trials collisions : Counter} {hit : Bool} (hmsb : (trials + 1).msb = false)
    (htrials : trials.toNat < 2 ^ 63) (hle : collisions.toNat ≤ trials.toNat) :
    (trials + 1).toNat < 2 ^ 63 ∧ (if hit then collisions + 1 else collisions).toNat ≤ (trials + 1).toNat := by
  have hlt : (trials + 1).toNat < 2 ^ 63 := by simpa [BitVec.msb_eq_decide] using hmsb
  have htrials' : (trials + 1).toNat = trials.toNat + 1 := by bv_omega
  have hcollisions : (collisions + 1).toNat = collisions.toNat + 1 := by bv_omega
  refine ⟨hlt, ?_⟩
  cases hit
  · simp; omega
  · simp; omega

theorem CoreState.trial_countersAgree (poly : BitVec w) (p : Pattern) (s : CoreState n w) (h : s.CountersAgree) :
    (s.trial poly p).CountersAgree := by
  rw [CoreState.trial_eq]
  intro hovf
  obtain ⟨hkept, hmsb⟩ : s.ovf = false ∧ (s.trials + 1).msb = false := by simpa [ovfAfter] using hovf
  obtain ⟨htrials, hle⟩ := h hkept
  exact counters_succ_le hmsb htrials hle

theorem CoreState.sweepTick_countersAgree (poly : BitVec w) (s : CoreState n w) (h : s.CountersAgree) :
    (s.sweepTick poly).CountersAgree := by
  unfold CoreState.sweepTick
  split
  · exact h
  · exact CoreState.trial_countersAgree poly s.gen.pattern s h

theorem CoreState.runSweep_countersAgree (poly : BitVec w) (k : Nat) (s : CoreState n w) (h : s.CountersAgree) :
    (s.runSweep poly k).CountersAgree := by
  induction k generalizing s with
  | zero => exact h
  | succ k ih => exact ih _ (CoreState.sweepTick_countersAgree poly s h)

/-- A sweep clears the counters first, so it needs nothing of them. -/
theorem CoreState.sweep_countersAgree (poly : BitVec w) (sw : Sweep) (s : CoreState n w) :
    (s.sweep poly sw).CountersAgree :=
  CoreState.runSweep_countersAgree poly _ _ fun _ => ⟨by simp, by simp⟩

theorem Instr.work_countersAgree (poly : BitVec w) (i : Instr) (s : CoreState n w) (h : s.CountersAgree) :
    (Instr.work poly i s).CountersAgree := by
  cases i with
  | nop | fget j | fflip j | frand | crc | tgt => exact h
  | exh k | rnd k cnt | burst len => exact CoreState.sweep_countersAgree poly _ s

theorem CoreState.busyTick_countersAgree (poly : BitVec w) (s : CoreState n w) (h : s.CountersAgree) :
    (s.busyTick poly).CountersAgree := by
  unfold CoreState.busyTick
  split
  · exact h
  · exact CoreState.sweepTick_countersAgree poly s h

/-- Settles O50: every trial keeps it, a sweep starts with it, and nothing else writes the counters. -/
theorem stepKeepsCountersAgreeing : Obligations.StepKeepsCountersAgreeing := by
  intro s t
  refine step_keeps (P := CoreState.CountersAgree) ?_ ?_ ?_ ?_
  · exact fun c => c.applyReset_inv.counters
  · intro c word i _ hc _
    exact Instr.effect_induction Config.poly i c.accept (fun _ _ => hc) fun _ =>
      Instr.work_countersAgree Config.poly i c.accept hc
  · exact fun c word kind _ hc _ => hc
  · exact fun c _ => CoreState.busyTick_countersAgree Config.poly c

end Sys2Proof.Machine
end

section
/-!
GEN is absent outside a sweep and in its ranges within one, after every step; and a position in its ranges names
indices of the frame (spec 10_state R23; 42_pattern_generator R82, R84, R86, R87, R90).
-/

namespace Sys2Proof.Machine

variable {n w : Nat}

/-! ### Draws are combinations -/

/-- The combinations of `k` indices out of `s, …, s + m - 1` are tuples of `k` strictly increasing ones of them. -/
theorem mem_exhFrom {m s k : Nat} {p : Pattern} (h : p ∈ exhFrom m s k) :
    p.length = k ∧ p.Pairwise (· < ·) ∧ ∀ i ∈ p, s ≤ i ∧ i < s + m := by
  induction m generalizing s k p with
  | zero => cases k with
    | zero => simp_all
    | succ k => simp [exhFrom] at h
  | succ m ih => cases k with
    | zero => simp_all
    | succ k =>
      simp only [exhFrom, List.mem_append, List.mem_map] at h
      rcases h with ⟨q, hq, rfl⟩ | hp
      · obtain ⟨hlen, hinc, hrange⟩ := ih hq
        refine ⟨by simp [hlen], List.pairwise_cons.2 ⟨fun i hi => (hrange i hi).1, hinc⟩, fun i hi => ?_⟩
        rcases List.mem_cons.1 hi with rfl | hi
        · omega
        · have := hrange i hi; omega
      · obtain ⟨hlen, hinc, hrange⟩ := ih hp
        exact ⟨hlen, hinc, fun i hi => by have := hrange i hi; omega⟩

/-- Whatever the random source answers, a draw is `k` strictly increasing indices of the frame. -/
theorem subsetOfAnswer_valid {k : Nat} (a : Nat) (hk : k ≤ n) :
    (subsetOfAnswer n k a).length = k ∧ ValidPattern n (subsetOfAnswer n k a) := by
  have hlt : a % binom n k < n.choose k := by
    rw [binom_eq_choose]; exact Nat.mod_lt _ (Nat.choose_pos hk)
  obtain ⟨hlen, hinc, hrange⟩ := mem_exhFrom (List.mem_of_getElem? (getElem?_exhFrom n 0 k _ hk hlt))
  exact ⟨hlen, hinc, fun i hi => by have := hrange i hi; omega⟩

/-! ### Positions in their ranges -/

theorem Gen.ofDraw_valid {k rem : Nat} (src : RandomSource) (hk : k ≤ n) (hrem : 0 < rem) :
    (Gen.ofDraw k rem (drawPattern n k src)).1.Valid n :=
  ⟨hk, hrem, subsetOfAnswer_valid src.draw.1 hk⟩

/-- The successor of a position in its ranges is in its ranges, or there is none. -/
theorem genNext_valid {g : Gen} (src : RandomSource) (h : g.Valid n) : (genNext n g src).1.Valid n := by
  cases g with
  | none => trivial
  | exh c =>
    simp only [genNext]
    split
    · exact (validPattern_of_nextComb ‹_› h).1
    · trivial
  | rnd k rem p =>
    obtain ⟨hk, -, -⟩ := h
    simp only [genNext]
    split
    · trivial
    · exact Gen.ofDraw_valid src hk (by omega)
  | burst len s m =>
    obtain ⟨hlen, hle, hs, hm⟩ := h
    simp only [genNext]
    split
    · exact ⟨hlen, hle, hs, by omega⟩
    · split
      · exact ⟨hlen, hle, by omega, burstMasks_pos len⟩
      · trivial

/-- Every index of a position in its ranges is one of the frame (spec 42_pattern_generator R90). -/
theorem Gen.pattern_lt {g : Gen} (h : g.Valid n) : ∀ i ∈ g.pattern, i < n := by
  cases g with
  | none => simp [Gen.pattern]
  | exh c => exact h.2
  | rnd k rem p =>
    obtain ⟨-, -, -, hp⟩ := h
    exact hp.2
  | burst len s m =>
    obtain ⟨hlen, hle, hs, -⟩ := h
    intro i hi
    simp only [Gen.pattern, burstPattern, List.mem_append, List.mem_cons, List.mem_map, List.mem_filter,
      List.mem_range, List.not_mem_nil, or_false] at hi
    rcases hi with (rfl | ⟨j, ⟨hj, -⟩, rfl⟩) | rfl <;> omega

/-! ### The step -/

theorem CoreState.genAgrees_of_none {s : CoreState n w} (h : s.gen = .none) : s.GenAgrees :=
  ⟨fun _ => h, by rw [h]; trivial⟩

/-- A piece of a command in progress goes on to the next position, or completes without one. -/
theorem CoreState.busyTick_genAgrees (poly : BitVec w) (s : CoreState n w) (hseq : s.seq = .busy)
    (h : s.GenAgrees) : (s.busyTick poly).GenAgrees := by
  unfold CoreState.busyTick
  split
  next hgen => exact CoreState.genAgrees_of_none hgen
  next hgen =>
    refine ⟨fun hidle => absurd (by simp [hseq]) hidle, ?_⟩
    rw [CoreState.sweepTick, if_neg hgen, CoreState.advance_gen, CoreState.trial_eq]
    exact genNext_valid s.random h.valid

/-- Settles O51: a command starts and ends without a generator, and a trial step moves it by `genNext`. -/
theorem stepKeepsTheGeneratorInRange : Obligations.StepKeepsTheGeneratorInRange := by
  refine ⟨fun s t => step_keeps (P := CoreState.GenAgrees) ?_ ?_ ?_ ?_, fun s hs => Gen.pattern_lt hs.valid⟩
  · exact fun c => c.applyReset_inv.gen
  · intro c word i hseq hc _
    have hnone : c.accept.gen = .none := hc.absent (by simp [hseq])
    exact Instr.effect_induction Config.poly i c.accept (fun _ _ => CoreState.genAgrees_of_none hnone) fun _ =>
      CoreState.genAgrees_of_none (Instr.work_gen_none Config.poly c.accept i hnone)
  · exact fun c word kind hseq hc _ => CoreState.genAgrees_of_none (hc.absent (by simp [hseq]))
  · exact CoreState.busyTick_genAgrees Config.poly

end Sys2Proof.Machine
end

section
/-!
The decoder, said once for each operation code: a word whose OP field is a defined one is that command, or has a
reserved field set (spec 30_encoding R49, R50, R55); every other word is ILLEGAL_OP. The round trips, the decoder's
pseudocode over the fields as numbers, and the opcode map are read from it.
-/

namespace Sys2Proof

/-! ### Operation codes and operands -/

/-- An OP field that is no operation code's value names none. -/
theorem Opcode.ofBits_eq_none {op : BitVec 8} (h : ∀ o : Opcode, o.bits ≠ op) : Opcode.ofBits op = none :=
  Option.eq_none_iff_forall_ne_some.2 fun o ho => h o (Opcode.bits_of_ofBits ho)

@[simp] theorem Opcode.opcode_instr (o : Opcode) (arg : BitVec 8) (cnt : BitVec 48) :
    (o.instr arg cnt).opcode = o := by
  cases o <;> rfl

/-- The operands of a command are the values of the fields it uses, and a field bounds its value. -/
theorem Opcode.instr_wellFormed (o : Opcode) (arg : BitVec 8) (cnt : BitVec 48) : (o.instr arg cnt).WellFormed := by
  have harg := arg.isLt
  have hcnt := cnt.isLt
  rw [Instr.wellFormed_iff]
  cases o <;> simp only [Opcode.instr, Instr.argOperand, Instr.cntOperand] <;> omega

/-- The encoder leaves the fields that a command does not use at zero. -/
@[simp] theorem Instr.reservedSet_operands (i : Instr) :
    reservedSet i.opcode (BitVec.ofNat 8 i.argOperand) (BitVec.ofNat 48 i.cntOperand) = false := by
  cases i <;> rfl

/-- Operands that fit their fields are read back from them. -/
theorem Instr.instr_operands {i : Instr} (h : i.WellFormed) :
    i.opcode.instr (BitVec.ofNat 8 i.argOperand) (BitVec.ofNat 48 i.cntOperand) = i := by
  obtain ⟨harg, hcnt⟩ := i.wellFormed_iff.1 h
  cases i with
  | nop | frand | crc | tgt => rfl
  | fget a | fflip a | exh a | burst a =>
    simpa [Instr.opcode, Opcode.instr, Instr.argOperand] using harg
  | rnd a c => exact congrArg₂ Instr.rnd (Nat.mod_eq_of_lt harg) (Nat.mod_eq_of_lt hcnt)

/-! ### The decoder over a word's fields -/

section
variable {word : CmdWord} {o : Opcode}

theorem decode_of_opField (ho : opField word = o.bits) :
    decode word = if reservedSet o (argField word) (cntField word) then .error .illegalField
      else .ok (o.instr (argField word) (cntField word)) := by
  rw [← decode_packWord, ← ho, packWord_fields]

theorem decode_of_undefined (h : ∀ o : Opcode, o.bits ≠ opField word) : decode word = .error .illegalOp := by
  simp [decode, Opcode.ofBits_eq_none h]

/-- A word decodes to a command exactly when its OP field is defined and the fields reserved for it are zero. -/
theorem decode_eq_ok_iff {i : Instr} :
    decode word = .ok i ↔ ∃ o : Opcode, opField word = o.bits ∧
      reservedSet o (argField word) (cntField word) = false ∧ o.instr (argField word) (cntField word) = i := by
  constructor
  · intro h
    obtain ⟨o, ho⟩ : ∃ o : Opcode, o.bits = opField word := by
      by_contra hnone
      rw [not_exists] at hnone
      simp [decode_of_undefined hnone] at h
    rw [decode_of_opField ho.symm] at h
    split at h
    next => cases h
    next hreserved => exact ⟨o, ho.symm, by simpa using hreserved, by simpa using h⟩
  · rintro ⟨o, ho, hreserved, rfl⟩
    simp [decode_of_opField ho, hreserved]

/-- A word decodes to some command with the operation code of its OP field, if its reserved fields are zero. -/
theorem exists_decode_eq_ok_iff :
    (∃ i, decode word = .ok i ∧ i.opcode = o) ↔
      opField word = o.bits ∧ reservedSet o (argField word) (cntField word) = false := by
  constructor
  · rintro ⟨i, hi, rfl⟩
    obtain ⟨o, ho, hreserved, rfl⟩ := decode_eq_ok_iff.1 hi
    simpa using ⟨ho, hreserved⟩
  · rintro ⟨ho, hreserved⟩
    exact ⟨_, decode_eq_ok_iff.2 ⟨o, ho, hreserved, rfl⟩, o.opcode_instr _ _⟩

end

/-! ### The round trips -/

/-- Settles O3: the decoder finds the operation code and reads back the operands, which fit, and the encoder has left
the other fields at zero. -/
theorem decodeEncodeRoundTrip : Obligations.DecodeEncodeRoundTrip := by
  intro i hi
  rw [encode, decode_packWord, Instr.reservedSet_operands, Instr.instr_operands hi]
  rfl

/-- Settles O4: a decoded command is its word's, and its operands are read from fields. -/
theorem encodeDecodeRoundTrip : Obligations.EncodeDecodeRoundTrip := by
  intro word i h
  refine ⟨?_, Machine.encode_of_decode h⟩
  obtain ⟨o, -, -, rfl⟩ := decode_eq_ok_iff.1 h
  exact o.instr_wellFormed _ _

/-! ### The decoder's pseudocode -/

theorem toNat_opField (word : CmdWord) : (opField word).toNat = (word >>> 56).toNat := by
  have hword := word.isLt
  rw [opField, BitVec.extractLsb'_toNat, BitVec.toNat_ushiftRight]
  omega

theorem toNat_argField (word : CmdWord) : (argField word).toNat = (word >>> 48).toNat % 256 := by
  rw [argField, BitVec.extractLsb'_toNat, BitVec.toNat_ushiftRight]

theorem toNat_cntField (word : CmdWord) : (cntField word).toNat = word.toNat % 2 ^ 48 := by
  rw [cntField, BitVec.extractLsb'_toNat, Nat.shiftRight_zero]

theorem reservedSet_eq_true_iff (o : Opcode) (arg : BitVec 8) (cnt : BitVec 48) :
    reservedSet o arg cnt = true ↔ (o.usesArg = false ∧ arg.toNat ≠ 0) ∨ (o.usesCnt = false ∧ cnt.toNat ≠ 0) := by
  simp [reservedSet, BitVec.toNat_eq]

section
variable {word : CmdWord} (o : Opcode) (hop : (opField word).toNat = o.bits.toNat)
include hop

theorem decode_of_reserved
    (h : (o.usesArg = false ∧ (argField word).toNat ≠ 0) ∨ (o.usesCnt = false ∧ (cntField word).toNat ≠ 0)) :
    decode word = .error .illegalField := by
  rw [decode_of_opField (BitVec.eq_of_toNat_eq hop), if_pos ((reservedSet_eq_true_iff ..).2 h)]

theorem decode_of_not_reserved (harg : o.usesArg = false → (argField word).toNat = 0)
    (hcnt : o.usesCnt = false → (cntField word).toNat = 0) :
    decode word = .ok (o.instr (argField word) (cntField word)) := by
  rw [decode_of_opField (BitVec.eq_of_toNat_eq hop), if_neg]
  rw [reservedSet_eq_true_iff]
  rintro (⟨huse, hne⟩ | ⟨huse, hne⟩)
  · exact hne (harg huse)
  · exact hne (hcnt huse)

end

/-- Settles O2: the fields are the numbers of the pseudocode, and each OP value is one operation code's or none's. -/
theorem decoderFollowsItsPseudocode : Obligations.DecoderFollowsItsPseudocode := by
  intro word op arg cnt hop harg hcnt
  rw [← toNat_opField] at hop
  rw [← toNat_argField] at harg
  rw [← toNat_cntField] at hcnt
  subst hop harg hcnt
  refine ⟨?undefined, ?argReserved, ?cntReserved,
    fun ⟨hop, harg, hcnt⟩ => decode_of_not_reserved .nop hop (fun _ => harg) fun _ => hcnt,
    fun ⟨hop, hcnt⟩ => decode_of_not_reserved .fget hop nofun fun _ => hcnt,
    fun ⟨hop, hcnt⟩ => decode_of_not_reserved .fflip hop nofun fun _ => hcnt,
    fun ⟨hop, harg, hcnt⟩ => decode_of_not_reserved .frand hop (fun _ => harg) fun _ => hcnt,
    fun ⟨hop, harg, hcnt⟩ => decode_of_not_reserved .crc hop (fun _ => harg) fun _ => hcnt,
    fun ⟨hop, harg, hcnt⟩ => decode_of_not_reserved .tgt hop (fun _ => harg) fun _ => hcnt,
    fun ⟨hop, hcnt⟩ => decode_of_not_reserved .exh hop nofun fun _ => hcnt,
    fun hop => decode_of_not_reserved .rnd hop nofun nofun,
    fun ⟨hop, hcnt⟩ => decode_of_not_reserved .burst hop nofun fun _ => hcnt⟩
  case undefined =>
    intro hop
    refine decode_of_undefined fun o ho => hop ?_
    rw [← ho]
    cases o <;> decide
  case argReserved =>
    rintro ⟨hop, hfield⟩
    obtain ⟨o, ho, hop⟩ := List.exists_of_mem_map (f := (·.bits.toNat)) (l := [Opcode.nop, .frand, .crc, .tgt]) hop
    obtain ⟨harg, hcnt⟩ : o.usesArg = false ∧ o.usesCnt = false :=
      (by decide : ∀ o ∈ [Opcode.nop, .frand, .crc, .tgt], o.usesArg = false ∧ o.usesCnt = false) o ho
    exact decode_of_reserved o hop.symm (hfield.imp (⟨harg, ·⟩) (⟨hcnt, ·⟩))
  case cntReserved =>
    rintro ⟨hop, hfield⟩
    obtain ⟨o, ho, hop⟩ := List.exists_of_mem_map (f := (·.bits.toNat)) (l := [Opcode.fget, .fflip, .exh, .burst]) hop
    have hcnt : o.usesCnt = false :=
      (by decide : ∀ o ∈ [Opcode.fget, .fflip, .exh, .burst], o.usesCnt = false) o ho
    exact decode_of_reserved o hop.symm (.inr ⟨hcnt, hfield⟩)

/-! ### The opcode map -/

/-- The mask of an operation code: all ones over OP and the reserved fields (spec 30_encoding R48). -/
def Opcode.mask (o : Opcode) : CmdWord :=
  packWord (BitVec.allOnes 8) (if o.usesArg then 0#8 else BitVec.allOnes 8)
    (if o.usesCnt then 0#48 else BitVec.allOnes 48)

/-- The row that an operation code's value and reserved fields give (spec 30_encoding R48). -/
def Opcode.row (o : Opcode) : OpcodeRow := ⟨o, packWord o.bits 0#8 0#48, o.mask⟩

/-- The printed match and mask values are those of the operation codes' fields. -/
theorem opcodeTable_eq_map_row : opcodeTable = Opcode.all.map Opcode.row := by decide

theorem eq_row_of_mem_opcodeTable {row : OpcodeRow} (h : row ∈ opcodeTable) : row = row.opcode.row := by
  rw [opcodeTable_eq_map_row, List.mem_map] at h
  obtain ⟨o, -, rfl⟩ := h
  rfl

/-- The mask keeps OP and what is reserved, so the masked word is the match value when OP is right and the rest is
zero. -/
theorem and_mask_eq_iff (word : CmdWord) (o : Opcode) :
    word &&& o.mask = packWord o.bits 0#8 0#48 ↔
      opField word = o.bits ∧ reservedSet o (argField word) (cntField word) = false := by
  conv_lhs => rw [← packWord_fields word, Opcode.mask, packWord_and, packWord_inj]
  cases harg : o.usesArg <;> cases hcnt : o.usesCnt <;> simp [-BitVec.reduceAllOnes, reservedSet, harg, hcnt]

theorem selected_iff_decodes (word : CmdWord) {row : OpcodeRow} (h : row ∈ opcodeTable) :
    word &&& row.maskBits = row.matchBits ↔ ∃ i, decode word = .ok i ∧ i.opcode = row.opcode := by
  rw [eq_row_of_mem_opcodeTable h, exists_decode_eq_ok_iff]
  exact and_mask_eq_iff word row.opcode

/-- Settles O5: a row selects the words that decode with its operation code, and a word decodes to one command. -/
theorem opcodeMapSelectsTheCommand : Obligations.OpcodeMapSelectsTheCommand := by
  refine ⟨rfl, fun word row => selected_iff_decodes word, fun word row row' hrow hrow' hsel hsel' => ?_⟩
  obtain ⟨i, hi, hopcode⟩ := (selected_iff_decodes word hrow).1 hsel
  obtain ⟨i', hi', hopcode'⟩ := (selected_iff_decodes word hrow').1 hsel'
  obtain rfl : i = i' := by simpa [hi] using hi'
  rw [eq_row_of_mem_opcodeTable hrow, eq_row_of_mem_opcodeTable hrow', ← hopcode, ← hopcode']

/-- Settles O1, by evaluating the decoder on each word. -/
theorem sampleWordsDecode : Obligations.SampleWordsDecode := by
  unfold Obligations.SampleWordsDecode
  decide

end Sys2Proof
end

section
/-!
The command port: lines of text as words (spec 30_encoding R56, R57), and words that are not accepted (R45).
-/

namespace Sys2Proof.Machine

/-- Settles O6, by evaluating the assembler on each line. -/
theorem assembledLines : Obligations.AssembledLines := by
  unfold Obligations.AssembledLines
  decide

/-- Outside IDLE a step sees of its pins `rst` alone. -/
theorem step_eq_of_seq_ne_idle {s t : State} (hseq : s.seq ≠ .idle) (hrst : s.pins.rst = t.pins.rst)
    (hsampled : s.sampled = t.sampled) : step s = step t := by
  have hcore : s.toCoreState = t.toCoreState := by
    rw [← s.sampled_toCoreState, hsampled, t.sampled_toCoreState]
  unfold step
  rw [hrst, hsampled, ← hcore]
  cases h : s.seq with
  | idle => exact absurd h hseq
  | busy | halt => rfl

/-- Settles O41: presented and quiet pins differ in no `rst`, and neither is remembered. -/
theorem unreadyCoreIgnoresWords : Obligations.UnreadyCoreIgnoresWords :=
  fun _ _ _ hseq => step_eq_of_seq_ne_idle hseq rfl rfl

end Sys2Proof.Machine
end

section
/-!
FRAND: the frame its draw stands for (spec 40_bitframe R63; 10_state R24), and the words of a command without operands
(spec 30_encoding R50, R55).
-/

namespace Sys2Proof

/-- Below OP a word holds ARG and CNT. -/
theorem toNat_mod_two_pow_56 (word : CmdWord) :
    word.toNat % 2 ^ 56 = (argField word).toNat * 2 ^ 48 + (cntField word).toNat := by
  rw [toNat_argField, toNat_cntField, BitVec.toNat_ushiftRight, Nat.shiftRight_eq_div_pow]
  omega

/-- A word with a bit set below the OP field of a command without operands has a reserved field set. -/
theorem decode_of_low_bits_set {word : CmdWord} (o : Opcode) (harg : o.usesArg = false) (hcnt : o.usesCnt = false)
    (hop : word >>> 56 = o.bits.setWidth 64) (hlow : word.toNat % 2 ^ 56 ≠ 0) :
    decode word = .error .illegalField := by
  have hopField : (opField word).toNat = o.bits.toNat := by
    rw [toNat_opField, hop, BitVec.toNat_setWidth_of_le (by decide)]
  have hset : (argField word).toNat ≠ 0 ∨ (cntField word).toNat ≠ 0 := by
    rw [toNat_mod_two_pow_56] at hlow
    omega
  exact decode_of_reserved o hopField (hset.imp (⟨harg, ·⟩) (⟨hcnt, ·⟩))

end Sys2Proof

namespace Sys2Proof.Machine

@[simp] theorem RandomSource.draw_cons (a : Nat) (rest : List Nat) (served : Nat) :
    RandomSource.draw ⟨a :: rest, served⟩ = (a, ⟨rest, served + 1⟩) := rfl

theorem frameOfAnswer_getLsbD {n i : Nat} (a : Nat) (hi : i < n) : (frameOfAnswer n a).getLsbD i = a.testBit i := by
  rw [frameOfAnswer, BitVec.getLsbD_ofNat, decide_eq_true hi, Bool.true_and]

/-- Every frame is the draw of some answer: of its own number. -/
@[simp] theorem frameOfAnswer_toNat {n : Nat} (f : BitVec n) : frameOfAnswer n f.toNat = f := by
  rw [frameOfAnswer, BitVec.ofNat_toNat, BitVec.setWidth_eq]

theorem exec_frand (s : State) :
    exec .frand s =
      .next { s with frame := frameOfAnswer 83 s.random.draw.1, random := s.random.draw.2, seq := .idle } :=
  exec_eq .frand s

/-- Settles O10: the draw's low bits are the frame, a frame's own number draws it, and FRAND has no operands. -/
theorem frandLoadsOneDraw : Obligations.FrandLoadsOneDraw := by
  refine ⟨fun s => ⟨_, exec_frand s, fun i hi => frameOfAnswer_getLsbD _ hi⟩, fun s f => ⟨f.toNat, ?everyFrame⟩,
    fun word hop hlow => decode_of_low_bits_set .frand rfl rfl hop hlow⟩
  case everyFrame =>
    intro rest served
    rw [exec_frand, RandomSource.draw_cons, frameOfAnswer_toNat]

end Sys2Proof.Machine
end

section
/-!
The checksum as a fold over the frame (spec 41_crcengine R71, R72), and TGT (R75).
-/

namespace Sys2Proof.Machine

variable {n w : Nat}

/-- The register after `k` steps is the fold over the first `k` frame bits, whatever the frame's length. -/
theorem crcAfter_eq_foldl (poly : BitVec w) (f : BitVec n) (k : Nat) :
    crcAfter poly f k = ((List.range k).map f.getLsbD).foldl (crcStep poly) 0#w := by
  induction k with
  | zero => rfl
  | succ k ih =>
    rw [List.range_succ, List.map_append, List.foldl_append, ← ih]
    rfl

/-- Settles O13: the checksum is the register after the frame's `n` bits. -/
theorem checksumFoldsTheFrame : Obligations.ChecksumFoldsTheFrame :=
  fun n _ poly f => crcAfter_eq_foldl poly f n

/-- Settles O14: a zero bit keeps the register at zero, so every step of the zero frame does. -/
theorem checksumOfZeroFrame : Obligations.ChecksumOfZeroFrame :=
  fun _ _ poly => crc_zero poly

/-- Settles O17: TGT writes TARGET and SEQ alone, and has no operands. -/
theorem tgtCopiesTheChecksum : Obligations.TgtCopiesTheChecksum :=
  ⟨fun s => exec_eq .tgt s, fun _ hop hlow => decode_of_low_bits_set .tgt rfl rfl hop hlow⟩

end Sys2Proof.Machine
end

section
/-!
EXH: the sequence holds exactly the tuples of strictly increasing indices, in lexicographic order, and GEN's successor
is that of the pseudocode (spec 42_pattern_generator R81 to R83).
-/

namespace Sys2Proof.Machine

/-! ### The sequence of combinations -/

/-- The converse of `mem_exhFrom`: a tuple starts with the least index of the range, or lies above it. -/
theorem mem_exhFrom_length {m s : Nat} {p : Pattern} (hinc : p.Pairwise (· < ·))
    (hrange : ∀ i ∈ p, s ≤ i ∧ i < s + m) : p ∈ exhFrom m s p.length := by
  induction m generalizing s p with
  | zero =>
    obtain rfl : p = [] := List.eq_nil_iff_forall_not_mem.2 fun i hi => by have := hrange i hi; omega
    simp
  | succ m ih =>
    cases p with
    | nil => simp
    | cons a q =>
      obtain ⟨hmin, hq⟩ := List.pairwise_cons.1 hinc
      have ha := hrange a List.mem_cons_self
      simp only [List.length_cons, exhFrom, List.mem_append, List.mem_map]
      by_cases has : a = s
      · refine .inl ⟨q, ih hq fun i hi => ?_, by rw [has]⟩
        have := hmin i hi
        have := hrange i (List.mem_cons_of_mem a hi)
        omega
      · refine .inr (ih hinc fun i hi => ?_)
        have := hrange i hi
        rcases List.mem_cons.1 hi with rfl | hi
        · omega
        · have := hmin i hi; omega

theorem mem_exhPatterns_iff {n k : Nat} {p : Pattern} :
    p ∈ exhPatterns n k ↔ p.length = k ∧ ValidPattern n p := by
  constructor
  · intro h
    obtain ⟨hlen, hinc, hrange⟩ := mem_exhFrom h
    exact ⟨hlen, hinc, fun i hi => by have := hrange i hi; omega⟩
  · rintro ⟨rfl, hinc, hlt⟩
    exact mem_exhFrom_length hinc fun i hi => by have := hlt i hi; omega

/-- Those that start with `s` come before those that start above it. -/
theorem exhFrom_pairwise_lt (m s k : Nat) : (exhFrom m s k).Pairwise (· < ·) := by
  induction m generalizing s k with
  | zero => cases k <;> simp [exhFrom]
  | succ m ih =>
    cases k with
    | zero => simp
    | succ k =>
      refine List.pairwise_append.2 ⟨?_, ih (s + 1) (k + 1), ?_⟩
      · exact List.pairwise_map.2 ((ih (s + 1) k).imp fun h => List.cons_lt_cons_iff.2 (.inr ⟨rfl, h⟩))
      · intro p hp q hq
        obtain ⟨p, -, rfl⟩ := List.mem_map.1 hp
        obtain ⟨hlen, -, hrange⟩ := mem_exhFrom hq
        cases q with
        | nil => simp at hlen
        | cons b q => exact List.cons_lt_cons_iff.2 (.inl (hrange b List.mem_cons_self).1)

/-- The only combination of all indices is the first one. -/
theorem exhPatterns_self (n : Nat) : exhPatterns n n = [List.range n] := by
  obtain ⟨l, hl, -⟩ := exhFrom_follows (n := n) (m := n) (s := 0) (k := n) (by omega) (Nat.le_refl n)
  have hlen := length_exhFrom n 0 n
  rw [hl, Nat.choose_self, List.length_cons] at hlen
  obtain rfl : l = [] := List.eq_nil_of_length_eq_zero (by omega)
  rw [exhPatterns, hl, List.range_eq_range']

/-- The last combination is the one of the highest indices. -/
theorem getLast?_exhFrom {m s k : Nat} (hk : k ≤ m) :
    (exhFrom m s k).getLast? = some (List.range' (s + m - k) k) := by
  induction m generalizing s k with
  | zero =>
    obtain rfl : k = 0 := by omega
    simp
  | succ m ih =>
    cases k with
    | zero => simp
    | succ k =>
      rw [exhFrom, List.getLast?_append]
      by_cases hkm : k + 1 ≤ m
      · rw [ih hkm, Option.some_or, show s + 1 + m - (k + 1) = s + (m + 1) - (k + 1) by omega]
      · obtain rfl : k = m := by omega
        rw [exhFrom_eq_nil (Nat.lt_succ_self k), List.getLast?_map, ih (Nat.le_refl k),
          show s + 1 + k - k = s + 1 by omega, show s + (k + 1) - (k + 1) = s by omega, List.range'_succ]
        rfl

/-- Settles O20: membership, order and size each by induction over the range of the indices. -/
theorem exhListsEveryCombinationOnce : Obligations.ExhListsEveryCombinationOnce :=
  ⟨fun _ _ _ => mem_exhPatterns_iff, fun n k => exhFrom_pairwise_lt n 0 k, fun n k => length_exhFrom n 0 k,
    fun n => exhFrom_zero n 0, exhPatterns_self, fun _ _ h => exhFrom_eq_nil h⟩

/-! ### The successor of a combination -/

/-- The `j`-th index of `c` can rise: above it there is room for the risen index and those after it
(spec 42_pattern_generator R82: `c[j] < N - k + j`). -/
def CanRise (n : Nat) (c : List Nat) (j : Nat) : Prop := c.getD j 0 + (c.length - j) < n

theorem canRise_iff {n : Nat} {c : List Nat} {j : Nat} (hn : c.length ≤ n) (hj : j < c.length) :
    CanRise n c j ↔ c.getD j 0 < n - c.length + j := by
  rw [CanRise]; omega

theorem canRise_cons_zero {n a : Nat} {c : List Nat} : CanRise n (a :: c) 0 ↔ a + 1 + c.length < n := by
  rw [CanRise, List.getD_cons_zero, List.length_cons]; omega

theorem canRise_cons_succ {n a j : Nat} {c : List Nat} : CanRise n (a :: c) (j + 1) ↔ CanRise n c j := by
  rw [CanRise, CanRise, List.getD_cons_succ, List.length_cons, Nat.add_sub_add_right]

theorem nextComb_eq_none {n : Nat} {c : List Nat} (h : ∀ j, j < c.length → ¬ CanRise n c j) :
    nextComb n c = none := by
  induction c with
  | nil => rfl
  | cons a rest ih =>
    have hrest : nextComb n rest = none :=
      ih fun j hj hrise => h (j + 1) (Nat.succ_lt_succ hj) (canRise_cons_succ.2 hrise)
    have ha : ¬ a + 1 + rest.length < n := fun hlt => h 0 (Nat.succ_pos _) (canRise_cons_zero.2 hlt)
    simp only [nextComb, hrest, if_neg ha]

/-- The last index that can rise does, and those after it follow on. -/
theorem nextComb_eq_some {n : Nat} {c : List Nat} {j : Nat} (hj : j < c.length) (hrise : CanRise n c j)
    (hlast : ∀ j', j < j' → j' < c.length → ¬ CanRise n c j') :
    nextComb n c = some (c.take j ++ List.range' (c.getD j 0 + 1) (c.length - j)) := by
  induction c generalizing j with
  | nil => exact absurd hj (Nat.not_lt_zero j)
  | cons a rest ih =>
    cases j with
    | zero =>
      have hrest : nextComb n rest = none := nextComb_eq_none fun j hj hr =>
        hlast (j + 1) (Nat.succ_pos j) (Nat.succ_lt_succ hj) (canRise_cons_succ.2 hr)
      simp [nextComb, hrest, canRise_cons_zero.1 hrise, List.range'_succ]
    | succ j =>
      have hrest := ih (Nat.lt_of_succ_lt_succ hj) (canRise_cons_succ.1 hrise) fun j' hjj' hj' hr =>
        hlast (j' + 1) (Nat.succ_lt_succ hjj') (Nat.succ_lt_succ hj') (canRise_cons_succ.2 hr)
      simp [nextComb, hrest]

/-- Settles O21: the pseudocode's condition is that an index can rise, and the last combination is the highest. -/
theorem combinationSuccessor : Obligations.CombinationSuccessor := by
  refine ⟨?first, ?next, ?finished, ?last⟩
  case first =>
    intro n k src _ hk
    rw [Sweep.first, if_pos hk]
  case next =>
    intro n c j src hn hj hlt hlast
    have hnext := nextComb_eq_some hj ((canRise_iff hn hj).2 hlt) fun j' hjj' hj' hr =>
      hlast j' hjj' hj' ((canRise_iff hn hj').1 hr)
    simp only [genNext, hnext]
  case finished =>
    intro n c src hn hnone
    have hnext := nextComb_eq_none fun j hj hr => hnone j hj ((canRise_iff hn hj).1 hr)
    simp only [genNext, hnext]
  case last =>
    intro n k _ hk
    rw [exhPatterns, getLast?_exhFrom hk, Nat.zero_add]

end Sys2Proof.Machine
end

section
/-!
RND: each draw is a combination and every combination is some answer's draw (spec 42_pattern_generator R84, R85; log 3).
-/

namespace Sys2Proof.Machine

/-- A combination's place in the list of all of them is an answer that picks it. -/
theorem exists_subsetOfAnswer_eq {n : Nat} {p : Pattern} (hp : ValidPattern n p) (hk : p.length ≤ n) :
    ∃ a, subsetOfAnswer n p.length a = p := by
  obtain ⟨a, ha⟩ := List.mem_iff_getElem?.1 (mem_exhPatterns_iff.2 ⟨rfl, hp⟩)
  have hlt : a < n.choose p.length := by
    rw [← length_exhFrom n 0]; exact (List.getElem?_eq_some_iff.1 ha).1
  have hpick := getElem?_exhFrom n 0 p.length a hk hlt
  refine ⟨a, ?_⟩
  rw [subsetOfAnswer, binom_eq_choose, Nat.mod_eq_of_lt hlt]
  exact Option.some_inj.1 (hpick.symm.trans ha)

theorem mem_drawPatterns {n k cnt : Nat} {src : RandomSource} {p : Pattern} (hk : k ≤ n)
    (hp : p ∈ (drawPatterns n k cnt src).1) : p.length = k ∧ ValidPattern n p := by
  induction cnt generalizing src with
  | zero => simp [drawPatterns] at hp
  | succ cnt ih =>
    rcases List.mem_cons.1 hp with rfl | hp
    · exact subsetOfAnswer_valid src.draw.1 hk
    · exact ih hp

/-- Any list of combinations is drawn: take for each an answer that picks it. -/
theorem exists_drawPatterns_eq {n k : Nat} {ps : List Pattern} (hk : k ≤ n)
    (hps : ∀ p ∈ ps, p.length = k ∧ ValidPattern n p) (rest : List Nat) (served : Nat) :
    ∃ answers : List Nat, answers.length = ps.length ∧
      drawPatterns n k ps.length ⟨answers ++ rest, served⟩ = (ps, ⟨rest, served + ps.length⟩) := by
  induction ps generalizing served with
  | nil => exact ⟨[], rfl, rfl⟩
  | cons p ps ih =>
    obtain ⟨rfl, hp⟩ := hps p List.mem_cons_self
    obtain ⟨a, ha⟩ := exists_subsetOfAnswer_eq hp hk
    obtain ⟨answers, hlen, hdraw⟩ := ih (fun q hq => hps q (List.mem_cons_of_mem p hq)) (served + 1)
    refine ⟨a :: answers, by simp [hlen], ?_⟩
    simp [drawPatterns, drawPattern, ha, hdraw, Nat.add_assoc, Nat.add_comm 1]

/-- Settles O22: unranking reaches every place of the list of combinations and nothing else. -/
theorem drawsAreExactlyTheSubsets : Obligations.DrawsAreExactlyTheSubsets := by
  intro n k hk
  refine ⟨fun a => subsetOfAnswer_valid a hk, ?_, fun _ _ _ hp => mem_drawPatterns hk hp,
    fun _ rest served hps => exists_drawPatterns_eq hk hps rest served⟩
  rintro p rfl hp
  exact exists_subsetOfAnswer_eq hp hk

end Sys2Proof.Machine
end

section
/-!
BURST: the indices of one pattern, and the sequence as the patterns of the places `s * 2^(L-2) + m` in order
(spec 42_pattern_generator R86 to R89).
-/

namespace Sys2Proof.Machine

/-! ### One burst pattern -/

theorem mem_burstPattern {len s m i : Nat} :
    i ∈ burstPattern len s m ↔
      i = s ∨ i = s + len - 1 ∨ ∃ j, j < len - 2 ∧ m.testBit j = true ∧ i = s + 1 + j := by
  simp only [burstPattern, List.mem_append, List.mem_cons, List.mem_map, List.mem_filter, List.mem_range,
    List.not_mem_nil, or_false, and_assoc, eq_comm (b := i)]
  rw [or_right_comm, or_assoc]

/-- An interior position is flipped exactly when its mask bit is 1 (spec 42_pattern_generator R86). -/
theorem interior_mem_burstPattern {len s m j : Nat} (hj : j < len - 2) :
    s + 1 + j ∈ burstPattern len s m ↔ m.testBit j = true := by
  rw [mem_burstPattern]
  constructor
  · rintro (h | h | ⟨j', -, hbit, h⟩)
    · omega
    · omega
    · obtain rfl : j = j' := by omega
      exact hbit
  · exact fun hbit => .inr (.inr ⟨j, hj, hbit, rfl⟩)

theorem burstPattern_pairwise_lt {len s m : Nat} (hlen : 2 ≤ len) : (burstPattern len s m).Pairwise (· < ·) := by
  have hinterior : (((List.range (len - 2)).filter fun j => m.testBit j).map (fun j => s + 1 + j)).Pairwise
      (· < ·) :=
    List.pairwise_map.2 ((List.pairwise_lt_range.filter _).imp fun h => Nat.add_lt_add_left h (s + 1))
  simp only [burstPattern, List.cons_append, List.pairwise_cons, List.pairwise_append, List.mem_append, List.mem_map,
    List.mem_filter, List.mem_range, List.mem_singleton]
  refine ⟨?_, hinterior, by simp, ?_⟩
  · rintro i (⟨j, -, rfl⟩ | rfl) <;> omega
  · rintro i ⟨j, ⟨hj, -⟩, rfl⟩ _ rfl
    omega

theorem length_burstPattern (len s m : Nat) :
    (burstPattern len s m).length = 2 + ((List.range (len - 2)).filter fun j => m.testBit j).length := by
  simp only [burstPattern, List.length_append, List.length_cons, List.length_map, List.length_nil]
  omega

/-- Settles O23: the interior is the mask's ones shifted past the start, between the two ends. -/
theorem burstPatternIndices : Obligations.BurstPatternIndices :=
  fun len s m hlen _ => ⟨fun _ => mem_burstPattern, burstPattern_pairwise_lt hlen, length_burstPattern len s m⟩

/-- A pattern determines its start, its first index, and its mask, bit by bit. -/
theorem burstPattern_inj {len s s' m m' : Nat} (hm : m < burstMasks len) (hm' : m' < burstMasks len)
    (h : burstPattern len s m = burstPattern len s' m') : s = s' ∧ m = m' := by
  obtain rfl : s = s' := (List.cons.inj h).1
  refine ⟨rfl, Nat.eq_of_testBit_eq fun j => ?_⟩
  by_cases hj : j < len - 2
  · rw [Bool.eq_iff_iff, ← interior_mem_burstPattern (s := s) hj, h, interior_mem_burstPattern hj]
  · have hle : burstMasks len ≤ 2 ^ j := Nat.pow_le_pow_right Nat.two_pos (Nat.le_of_not_lt hj)
    rw [Nat.testBit_lt_two_pow (hm.trans_le hle), Nat.testBit_lt_two_pow (hm'.trans_le hle)]

/-! ### The sequence of bursts -/

/-- Two nested ranges are one range of places, split by division. -/
theorem range_flatMap_range {α : Type} (f : Nat → Nat → α) {b : Nat} (hb : 0 < b) (a : Nat) :
    ((List.range a).flatMap fun s => (List.range b).map (f s)) =
      (List.range (a * b)).map fun i => f (i / b) (i % b) := by
  induction a with
  | zero => simp
  | succ a ih =>
    rw [List.range_succ, List.flatMap_append, ih, Nat.succ_mul, List.range_add, List.map_append, List.map_map,
      List.flatMap_singleton]
    refine congrArg _ (List.map_congr_left fun m hm => ?_)
    have hm : m < b := List.mem_range.1 hm
    simp [Nat.mul_comm a b, Nat.mul_add_div hb, Nat.div_eq_of_lt hm, Nat.mod_eq_of_lt hm]

/-- The burst sequence by places: place `i` holds the start `i / 2^(L-2)` and the mask `i % 2^(L-2)`. -/
theorem burstPatterns_eq_map {n len : Nat} (hlen : 2 ≤ len) (hle : len ≤ n) :
    burstPatterns n len = (List.range ((n - len + 1) * burstMasks len)).map fun i =>
      burstPattern len (i / burstMasks len) (i % burstMasks len) := by
  rw [burstPatterns, if_pos ⟨hlen, hle⟩, range_flatMap_range _ (burstMasks_pos len)]

theorem mem_burstPatterns {n len : Nat} {p : Pattern} :
    p ∈ burstPatterns n len ↔
      (2 ≤ len ∧ len ≤ n) ∧ ∃ s m, s ≤ n - len ∧ m < burstMasks len ∧ p = burstPattern len s m := by
  unfold burstPatterns
  split
  next h => simp [h, eq_comm (a := p)]
  next h => simp [h]

theorem burstPatterns_nodup (n len : Nat) : (burstPatterns n len).Nodup := by
  by_cases h : 2 ≤ len ∧ len ≤ n
  · rw [burstPatterns_eq_map h.1 h.2]
    have hlt (i : Nat) : i % burstMasks len < burstMasks len := Nat.mod_lt i (burstMasks_pos len)
    refine List.Nodup.map (fun i i' hii' => ?_) List.nodup_range
    obtain ⟨hdiv, hmod⟩ := burstPattern_inj (hlt i) (hlt i') hii'
    rw [← Nat.div_add_mod i (burstMasks len), hdiv, hmod, Nat.div_add_mod]
  · rw [burstPatterns, if_neg h]; exact List.nodup_nil

theorem burstPatterns_eq_nil {n len : Nat} (h : n < len) : burstPatterns n len = [] :=
  if_neg fun hle => by omega

theorem getElem?_burstPatterns {n len s m : Nat} (hlen : 2 ≤ len) (hle : len ≤ n) (hs : s ≤ n - len)
    (hm : m < burstMasks len) : (burstPatterns n len)[s * burstMasks len + m]? = some (burstPattern len s m) := by
  have hplace : s * burstMasks len + m < (n - len + 1) * burstMasks len := calc
    s * burstMasks len + m < (s + 1) * burstMasks len := by rw [Nat.succ_mul]; omega
    _ ≤ (n - len + 1) * burstMasks len := Nat.mul_le_mul_right _ (Nat.succ_le_succ hs)
  rw [burstPatterns_eq_map hlen hle, List.getElem?_map, List.getElem?_range hplace, Option.map_some,
    Nat.mul_comm s, Nat.mul_add_div (burstMasks_pos len), Nat.mul_add_mod, Nat.div_eq_of_lt hm, Nat.mod_eq_of_lt hm,
    Nat.add_zero]

/-- Settles O24: the sequence read by places, and a pattern determines its start and mask. -/
theorem burstListsEveryPairOnce : Obligations.BurstListsEveryPairOnce := by
  refine ⟨fun n len p hlen hle => ?member, burstPatterns_nodup, fun n len hlen hle => ?count,
    fun _ _ => burstPatterns_eq_nil, fun n len s m => getElem?_burstPatterns, fun n len src hlen hle => ?first,
    fun _ _ _ _ _ _ _ => rfl⟩
  case member => exact mem_burstPatterns.trans (and_iff_right ⟨hlen, hle⟩)
  case count => rw [length_burstPatterns, if_pos ⟨hlen, hle⟩, burstMasks]
  case first => rw [Sweep.first, if_pos ⟨hlen, hle⟩]

end Sys2Proof.Machine
end

section
/-!
All three sweeps: their patterns lie in the frame, and an argument above the frame length makes the empty sweep
(spec 42_pattern_generator R89, R90).
-/

namespace Sys2Proof.Machine

variable {n w : Nat}

/-- A member of any sweep is a tuple of strictly increasing indices of the frame. -/
theorem validPattern_of_mem_patterns {sw : Sweep} {src : RandomSource} {p : Pattern}
    (hp : p ∈ (sw.patterns n src).1) : ValidPattern n p := by
  cases sw with
  | exh k => exact (mem_exhPatterns_iff.1 hp).2
  | rnd k cnt =>
    by_cases hk : k ≤ n
    · rw [Sweep.patterns, if_pos hk] at hp
      exact (mem_drawPatterns hk hp).2
    · simp [Sweep.patterns, hk] at hp
  | burst len =>
    obtain ⟨⟨hlen, hle⟩, s, m, hs, hm, rfl⟩ := mem_burstPatterns.1 hp
    exact ⟨burstPattern_pairwise_lt hlen, Gen.pattern_lt (g := .burst len s m) ⟨hlen, hle, hs, hm⟩⟩

/-- Settles O25: strictly increasing indices are distinct. -/
theorem sweepsStayInsideTheFrame : Obligations.SweepsStayInsideTheFrame := by
  intro n sw src p hp
  obtain ⟨hinc, hlt⟩ := validPattern_of_mem_patterns hp
  exact ⟨hinc.imp Nat.ne_of_lt, hlt⟩

/-! ### The empty sweep -/

/-- The weight or length of a sweep. -/
def Sweep.arg : Sweep → Nat
  | .exh k | .rnd k _ => k
  | .burst len => len

/-- No pattern has more indices, or is longer, than the frame, and no draw is taken for one. -/
theorem Sweep.patterns_of_lt_arg {sw : Sweep} (src : RandomSource) (h : n < sw.arg) :
    sw.patterns n src = ([], src) := by
  cases sw with
  | exh k => exact congrArg (·, src) (exhFrom_eq_nil h)
  | rnd k cnt => exact if_neg (Nat.not_le_of_lt h)
  | burst len => exact congrArg (·, src) (burstPatterns_eq_nil h)

/-- A sweep with an empty sequence clears the counters and OVF and does no more. -/
theorem CoreState.sweep_of_lt_arg (poly : BitVec w) {sw : Sweep} (s : CoreState n w) (h : n < sw.arg) :
    s.sweep poly sw = { s with trials := 0, collisions := 0, ovf := false, gen := .none } := by
  have hpatterns := sw.patterns_of_lt_arg s.random h
  have hsize : sw.size n = 0 := by rw [← length_patterns n sw s.random, hpatterns, List.length_nil]
  simp [CoreState.sweep_eq, CoreState.sweepPatterns, hpatterns, hsize, lastChecksum, collisionCount]

/-- A command whose work is a sweep, once past its own check, is that sweep and its completion. -/
theorem exec_of_work_sweep {i : Instr} {sw : Sweep} (s : State) (hcheck : Instr.check 83 i = none)
    (hwork : Instr.work Config.poly i s.toCoreState = s.sweep Config.poly sw) :
    exec i s = .next { s with toCoreState := (s.sweep Config.poly sw).complete } := by
  rw [exec_eq, State.mapCore, Instr.effect_of_check_none Config.poly s.toCoreState hcheck, hwork]

/-- Settles O29: a sweep with an argument above the frame length is the empty one. -/
theorem degenerateSweepsReportZero : Obligations.DegenerateSweepsReportZero := by
  constructor
  · rintro n a cnt sw src h (rfl | rfl | rfl) <;> exact Sweep.patterns_of_lt_arg src h
  · intro a cnt s i h hi
    obtain ⟨sw, harg, hexec⟩ : ∃ sw : Sweep, 83 < sw.arg ∧
        exec i s = .next { s with toCoreState := (s.sweep Config.poly sw).complete } := by
      rcases hi with rfl | rfl | rfl
      · exact ⟨.exh a, h, exec_of_work_sweep s rfl rfl⟩
      · exact ⟨.rnd a cnt, h, exec_of_work_sweep s rfl rfl⟩
      · exact ⟨.burst a, h, exec_of_work_sweep s (if_neg (by omega)) rfl⟩
    rw [hexec, CoreState.sweep_of_lt_arg Config.poly s.toCoreState harg]
    exact ⟨_, rfl, rfl, rfl, rfl, rfl, rfl, rfl, rfl⟩

end Sys2Proof.Machine
end

section
/-!
One trial, and the sweeps EXH and RND in the registers of the machine: each is the sweep's closed form at its own
sequence and size (spec 43_collision_counter R95, R96, R98 to R100).
-/

namespace Sys2Proof.Machine

variable {n w : Nat}

/-! ### One trial -/

theorem collides_eq_true_iff {poly : BitVec w} {f : BitVec n} {target : BitVec w} {p : Pattern} :
    collides poly f target p = true ↔ crc poly (f ^^^ errorFrame n p) = target :=
  beq_iff_eq

theorem ovfAfter_eq_getLsbD (trials : Counter) (ovf : Bool) : ovfAfter trials ovf = (ovf || trials.getLsbD 63) := by
  rw [ovfAfter, BitVec.msb_eq_getLsbD_last]

/-- Settles O31: a pattern adds its error frame, which holds its indices, and a trial is `CoreState.trial_eq` with
the collision and OVF spelt out. -/
theorem trialCountsOnePattern : Obligations.TrialCountsOnePattern := by
  refine ⟨fun n f p j hp hj => ?bits, fun n w poly p s => ?trial⟩
  case bits =>
    have hbit : (errorFrame n p).getLsbD j = decide (j ∈ p) := frameRead_errorFrame p hp j hj
    exact ⟨hbit, by rw [applyPattern_eq_xor, BitVec.getLsbD_xor, hbit]⟩
  case trial => simp only [CoreState.trial_eq, collides_eq_true_iff, ovfAfter_eq_getLsbD]

/-! ### A sweep command -/

/-- A command whose work is a sweep ends IDLE with the sweep's closed form (spec 43_collision_counter R98). -/
theorem exec_eq_of_work_sweep {i : Instr} {sw : Sweep} (s : State) (hcheck : Instr.check 83 i = none)
    (hwork : Instr.work Config.poly i s.toCoreState = s.sweep Config.poly sw) :
    exec i s = .next { s with
      r := lastChecksum Config.poly s.frame s.r (sw.patterns 83 s.random).1
      gen := .none
      trials := BitVec.ofNat 64 (sw.size 83)
      collisions := BitVec.ofNat 64 (collisionCount Config.poly s.frame s.target (sw.patterns 83 s.random).1)
      ovf := decide (2 ^ 63 ≤ sw.size 83)
      random := (sw.patterns 83 s.random).2
      seq := .idle } := by
  rw [exec_of_work_sweep s hcheck hwork, CoreState.sweep_eq]
  rfl

/-- A word whose top byte is an operation code's value has it in its OP field. -/
theorem toNat_opField_of_ushiftRight {word : CmdWord} {o : Opcode} (h : word >>> 56 = o.bits.setWidth 64) :
    (opField word).toNat = o.bits.toNat := by
  rw [toNat_opField, h, BitVec.toNat_setWidth_of_le (by decide)]

/-! ### EXH -/

theorem exec_exh (k : Nat) (s : State) :
    exec (.exh k) s = .next { s with
      r := lastChecksum Config.poly s.frame s.r (exhPatterns 83 k)
      gen := .none
      trials := BitVec.ofNat 64 (Nat.choose 83 k)
      collisions := BitVec.ofNat 64 (collisionCount Config.poly s.frame s.target (exhPatterns 83 k))
      ovf := decide (2 ^ 63 ≤ Nat.choose 83 k)
      seq := .idle } := by
  rw [← binom_eq_choose]
  exact exec_eq_of_work_sweep (sw := .exh k) s rfl rfl

/-- The empty pattern flips nothing, so it collides when the frame's checksum is the target. -/
theorem collides_nil (poly : BitVec w) (f : BitVec n) (target : BitVec w) :
    collides poly f target [] = decide (target = crc poly f) := by
  rw [Bool.eq_iff_iff, collides_eq_true_iff, errorFrame_nil, BitVec.xor_zero, decide_eq_true_iff, eq_comm]

theorem collisionCount_exhPatterns_zero (poly : BitVec w) (f : BitVec n) (target : BitVec w) :
    collisionCount poly f target (exhPatterns n 0) = if target = crc poly f then 1 else 0 := by
  rw [exhPatterns, exhFrom_zero, collisionCount, List.countP_singleton, collides_nil]
  simp only [decide_eq_true_iff]

/-- Settles O26: the closed form of the sweep, at weight 0 the one empty pattern, above 83 the empty sweep of O29. -/
theorem exhSweepResult : Obligations.ExhSweepResult := by
  refine ⟨fun k s => ⟨_, _, exec_exh k s⟩, fun s => ⟨_, exec_exh 0 s, rfl, ?emptyPattern⟩, fun k s hk => ?tooHeavy,
    fun word hop hcnt => ?reserved⟩
  case emptyPattern =>
    change BitVec.ofNat 64 (collisionCount Config.poly s.frame s.target (exhPatterns 83 0)) = _
    rw [collisionCount_exhPatterns_zero]
    split <;> rfl
  case tooHeavy =>
    obtain ⟨t, hexec, htrials, hcollisions, -⟩ := degenerateSweepsReportZero.2 k 0 s (.exh k) hk (.inl rfl)
    exact ⟨t, hexec, htrials, hcollisions⟩
  case reserved =>
    exact decode_of_reserved .exh (toNat_opField_of_ushiftRight hop) (.inr ⟨rfl, by rwa [toNat_cntField]⟩)

/-! ### RND -/

theorem exec_rnd {k : Nat} (cnt : Nat) (s : State) (hk : k ≤ 83) :
    exec (.rnd k cnt) s = .next { s with
      r := lastChecksum Config.poly s.frame s.r (drawPatterns 83 k cnt s.random).1
      gen := .none
      trials := BitVec.ofNat 64 cnt
      collisions := BitVec.ofNat 64 (collisionCount Config.poly s.frame s.target (drawPatterns 83 k cnt s.random).1)
      ovf := decide (2 ^ 63 ≤ cnt)
      random := (drawPatterns 83 k cnt s.random).2
      seq := .idle } := by
  have hpatterns : (Sweep.rnd k cnt).patterns 83 s.random = drawPatterns 83 k cnt s.random := if_pos hk
  have hsize : (Sweep.rnd k cnt).size 83 = cnt := if_pos hk
  rw [exec_eq_of_work_sweep (sw := .rnd k cnt) s rfl rfl, hpatterns, hsize]

/-- A draw takes one answer, listed or free. -/
theorem RandomSource.draw_snd (src : RandomSource) : src.draw.2 = ⟨src.answers.drop 1, src.served + 1⟩ := by
  obtain ⟨answers, served⟩ := src
  cases answers <;> rfl

theorem drawPatterns_snd (n k cnt : Nat) (src : RandomSource) :
    (drawPatterns n k cnt src).2 = ⟨src.answers.drop cnt, src.served + cnt⟩ := by
  induction cnt generalizing src with
  | zero => rfl
  | succ cnt ih =>
    calc (drawPatterns n k cnt src.draw.2).2
        = ⟨(src.answers.drop 1).drop cnt, src.served + 1 + cnt⟩ := by rw [ih, RandomSource.draw_snd]
      _ = ⟨src.answers.drop (cnt + 1), src.served + (cnt + 1)⟩ := by rw [List.drop_drop, Nat.add_assoc, Nat.add_comm 1]

/-- Settles O27: the closed form of the sweep with a count below `2^48`, one answer for each draw; above 83 the empty
sweep; RND uses both fields, so no word with its operation code has a reserved one. -/
theorem rndSweepResult : Obligations.RndSweepResult := by
  refine ⟨fun k cnt s hk hcnt => ?draws,
    fun k cnt s => ⟨length_drawPatterns 83 k cnt s.random, drawPatterns_snd 83 k cnt s.random⟩,
    fun k cnt s hk => ⟨.none, ?tooHeavy⟩, fun word hop => ⟨(argField word).toNat, (cntField word).toNat, ?legal⟩⟩
  case draws =>
    have hexec := exec_rnd cnt s hk
    rw [decide_eq_false (show ¬ 2 ^ 63 ≤ cnt by omega)] at hexec
    exact ⟨_, _, hexec⟩
  case tooHeavy =>
    have harg : 83 < (Sweep.rnd k cnt).arg := hk
    rw [exec_of_work_sweep s rfl rfl, CoreState.sweep_of_lt_arg Config.poly s.toCoreState harg]
    rfl
  case legal => exact decode_of_not_reserved .rnd (toNat_opField_of_ushiftRight hop) nofun nofun

end Sys2Proof.Machine
end

section
/-!
The command port (spec 44_control R110 to R113): what a step does with a presented word, with none, and with the word of
NOP; and that every step completes.
-/

namespace Sys2Proof.Machine

/-! ### A presented word -/

/-- An IDLE CORE accepts a presented word and executes the command it decodes to (spec 44_control R112). -/
theorem step_of_present {s : State} {word : CmdWord} {rest : List HostPins} {i : Instr} (hseq : s.seq = .idle)
    (hhost : s.host = HostPins.present word :: rest) (hdecode : decode word = .ok i) :
    step s = exec i { s with host := rest, seq := .busy } := by
  have hpins : s.pins = HostPins.present word := by rw [State.pins, hhost, List.headD_cons]
  have hsampled : s.sampled = { s with host := rest } := by rw [State.sampled, hhost, List.tail_cons]
  calc step s = runWord word s.sampled := by simp [step, hpins, HostPins.present, hseq]
    _ = exec i (s.sampled.mapCore CoreState.accept) := by simp only [runWord, hdecode]
    _ = exec i { s with host := rest, seq := .busy } := by rw [hsampled]; rfl

/-- Settles O37: the word is the command it decodes to, and without one the pins alone are sampled. -/
theorem stepRunsTheDecodedCommand : Obligations.StepRunsTheDecodedCommand := by
  refine ⟨fun s word rest i => step_of_present, fun s hseq hrst hvalid => ?noWord⟩
  case noWord =>
    calc step s = .next s.sampled := by simp [step, hrst, hseq, hvalid]
      _ = .next { s with host := s.host.tail } := rfl

/-! ### NOP -/

theorem exec_nop (s : State) : exec .nop s = .next { s with seq := .idle } := exec_eq .nop s

/-- A word with OP 0 has its whole value below the OP field. -/
theorem toNat_mod_of_ushiftRight_eq_zero {word : CmdWord} (h : word >>> 56 = 0#64) :
    word.toNat % 2 ^ 56 = word.toNat := by
  have hop : word.toNat / 2 ^ 56 = 0 := by
    simpa [BitVec.toNat_ushiftRight, Nat.shiftRight_eq_div_pow] using congrArg BitVec.toNat h
  omega

/-- Settles O7: NOP writes SEQ alone, which an IDLE CORE takes to BUSY and back, and has no operands. -/
theorem nopChangesNoRegister : Obligations.NopChangesNoRegister := by
  refine ⟨exec_nop, fun s rest hseq hhost => ?accepted, fun word hop hne => ?reserved⟩
  case accepted =>
    calc step s = exec .nop { s with host := rest, seq := .busy } := step_of_present hseq hhost (by decide)
      _ = .next { s with host := rest, seq := .idle } := exec_nop _
      _ = .next { s with host := rest } := by rw [← hseq]
  case reserved =>
    refine decode_of_low_bits_set .nop rfl rfl hop ?_
    rw [toNat_mod_of_ushiftRight_eq_zero hop]
    exact fun hzero => hne (BitVec.eq_of_toNat_eq hzero)

/-! ### Completion -/

theorem exists_step_eq_next (s : State) : ∃ t : State, step s = .next t := by
  rcases step_cases s with
    ⟨-, he⟩ | ⟨-, -, -, _, -, he⟩ | ⟨-, -, -, _, -, he⟩ | ⟨-, -, he⟩ | ⟨-, -, he⟩ <;>
    exact ⟨_, he⟩

/-- Settles O47: reset and a completed command end IDLE, and a fault ends in HALT. -/
theorem everyStepCompletes : Obligations.EveryStepCompletes := by
  refine ⟨exists_step_eq_next, fun s t => step_keeps (P := fun c => c.seq ≠ .busy) ?reset ?command ?fault ?busy⟩
  case reset => simp [CoreState.reset]
  case command =>
    intro c word i _ _ _
    exact Instr.effect_induction (P := fun c => c.seq ≠ .busy) Config.poly i c.accept (by simp) (by simp)
  case fault => simp
  case busy => exact fun c hbusy hnot => absurd hbusy hnot

end Sys2Proof.Machine
end

section
/-!
A sweep command is its trials one step at a time (spec 44_control R112, 10_state R23): while GEN has a position a BUSY
step is one trial of `CoreState.runSweep`, and the step that finds none completes the command.
-/

namespace Sys2Proof.Machine

/-- With quiet pins a BUSY CORE goes on with its command. -/
theorem step_of_busy {s : State} (hhost : s.host = []) (hseq : s.seq = .busy) :
    step s = .next (s.mapCore (CoreState.busyTick Config.poly)) := by
  have hpins : s.pins = HostPins.quiet := by rw [State.pins, hhost, List.headD_nil]
  have hsampled : s.sampled = s := by
    rw [State.sampled, hhost, List.tail_nil, ← hhost]
  simp [step, hpins, HostPins.quiet, hseq, hsampled]

/-- A sweep in progress whose generator ends after exactly `k` trials completes in `k` steps and one more. -/
theorem stepsTo_complete_runSweep {s : State} (hhost : s.host = []) (hseq : s.seq = .busy) {k : Nat}
    (hgoesOn : ∀ j, j < k → (s.runSweep Config.poly j).gen ≠ .none)
    (hends : (s.runSweep Config.poly k).gen = .none) :
    stepsTo (k + 1) s (s.mapCore fun c => (c.runSweep Config.poly k).complete) := by
  induction k generalizing s with
  | zero =>
    have htick : s.busyTick Config.poly = s.complete := if_pos hends
    have hlast : s.mapCore (CoreState.busyTick Config.poly) = s.mapCore CoreState.complete := by
      rw [State.mapCore, htick, State.mapCore]
    exact ⟨_, step_of_busy hhost hseq, hlast⟩
  | succ k ih =>
    have htick : s.busyTick Config.poly = s.sweepTick Config.poly := if_neg (hgoesOn 0 k.succ_pos)
    have hstep : step s = .next (s.mapCore (CoreState.sweepTick Config.poly)) := by
      rw [step_of_busy hhost hseq, State.mapCore, htick, State.mapCore]
    exact ⟨_, hstep, ih hhost (by simpa using hseq) (fun j hj => hgoesOn (j + 1) (Nat.succ_lt_succ hj)) hends⟩

/-- The generator of a sweep has a position for each of the patterns that the sweep evaluates. -/
theorem CoreState.runSweep_sweepStart_gen_ne {n w : Nat} (poly : BitVec w) (sw : Sweep) (s : CoreState n w) {j : Nat}
    (hj : j < sw.size n) : ((s.sweepStart sw).runSweep poly j).gen ≠ .none :=
  CoreState.runSweep_gen_ne poly (enumerates_first n sw s.random) (s.sweepStart sw) rfl rfl j
    (by rwa [length_patterns])

/-- BURST's own check passes every length from 2 on, however long (spec 60_exceptions R127). -/
theorem Instr.check_burst {n len : Nat} (h : 2 ≤ len) : Instr.check n (.burst len) = none :=
  if_neg (Nat.not_lt_of_le h)

/-- A command whose work is a sweep ends in the state that the sweep's trials, one for each step, reach. -/
theorem stepsTo_of_exec_sweep {i : Instr} {sw : Sweep} {s t : State} (hhost : s.host = []) (hseq : s.seq = .busy)
    (hcheck : Instr.check 83 i = none)
    (hwork : Instr.work Config.poly i s.toCoreState = s.sweep Config.poly sw) (hexec : exec i s = .next t) :
    stepsTo (sw.size 83 + 1) (s.mapCore (CoreState.sweepStart sw)) t := by
  cases (exec_of_work_sweep s hcheck hwork).symm.trans hexec
  exact stepsTo_complete_runSweep (s := s.mapCore (CoreState.sweepStart sw)) hhost hseq
    (fun _ => CoreState.runSweep_sweepStart_gen_ne Config.poly sw s.toCoreState)
    (CoreState.sweep_gen Config.poly sw s.toCoreState)

/-- Settles O35: each clause is `stepsTo_of_exec_sweep` at the size of its sweep, 0 for an argument above 83. -/
theorem trialStepsMakeTheSweep : Obligations.TrialStepsMakeTheSweep := by
  intro s t hhost hseq
  refine ⟨fun k hexec => ?exh, fun k cnt hk hexec => ?rnd, fun len hlen hle hexec => ?burst,
    fun k cnt hk hexec => ?rndTooHeavy, fun len hlen hexec => ?burstTooLong⟩
  case exh =>
    rw [← binom_eq_choose]
    exact stepsTo_of_exec_sweep (sw := .exh k) hhost hseq rfl rfl hexec
  case rnd =>
    have hsize : (Sweep.rnd k cnt).size 83 = cnt := if_pos hk
    simpa only [hsize] using stepsTo_of_exec_sweep (sw := .rnd k cnt) hhost hseq rfl rfl hexec
  case burst =>
    have hsize : (Sweep.burst len).size 83 = (83 - len + 1) * 2 ^ (len - 2) := if_pos ⟨hlen, hle⟩
    simpa only [hsize] using
      stepsTo_of_exec_sweep (sw := .burst len) hhost hseq (Instr.check_burst hlen) rfl hexec
  case rndTooHeavy =>
    have hsize : (Sweep.rnd k cnt).size 83 = 0 := if_neg (Nat.not_le_of_lt hk)
    simpa only [hsize] using stepsTo_of_exec_sweep (sw := .rnd k cnt) hhost hseq rfl rfl hexec
  case burstTooLong =>
    have hsize : (Sweep.burst len).size 83 = 0 := if_neg fun h => Nat.not_le_of_lt hlen h.2
    have hcheck : Instr.check 83 (.burst len) = none := Instr.check_burst (by omega)
    simpa only [hsize] using stepsTo_of_exec_sweep (sw := .burst len) hhost hseq hcheck rfl hexec

end Sys2Proof.Machine
end

section
/-!
Exceptions (spec 60_exceptions): which fault a word raises, read from its fields; what a step does with a word that
raises one and with a word that raises none; and HALT.
-/

namespace Sys2Proof.Machine

/-! ### Which fault a word raises -/

/-- A word with an undefined operation code faults before its other fields are looked at (spec 60_exceptions R128). -/
theorem faultOf_of_undefined {n : Nat} {word : CmdWord} (h : ∀ o : Opcode, o.bits ≠ opField word) :
    faultOf n word = some .illegalOp :=
  faultOf_of_decode_error (decode_of_undefined h)

/-- Under a defined operation code the reserved fields come before the command's own check (spec 60_exceptions R128). -/
theorem faultOf_of_opField {n : Nat} {word : CmdWord} {o : Opcode} (ho : opField word = o.bits) :
    faultOf n word = if reservedSet o (argField word) (cntField word) then some .illegalField
      else Instr.check n (o.instr (argField word) (cntField word)) := by
  have hdecode := decode_of_opField ho
  split_ifs at hdecode ⊢
  · exact faultOf_of_decode_error hdecode
  · exact faultOf_of_decode_ok hdecode

theorem toNat_bits_mem (o : Opcode) :
    o.bits.toNat ∈ [0x00, 0x01, 0x02, 0x03, 0x04, 0x05, 0x08, 0x09, 0x0A] := by
  cases o <;> decide

/-- The operation codes are all the defined values of OP (spec 30_encoding R49). -/
theorem exists_bits_eq_of_mem {op : BitVec 8}
    (h : op.toNat ∈ [0x00, 0x01, 0x02, 0x03, 0x04, 0x05, 0x08, 0x09, 0x0A]) : ∃ o : Opcode, o.bits = op := by
  obtain ⟨o, -, ho⟩ := List.exists_of_mem_map (f := (·.bits.toNat)) (l := Opcode.all) h
  exact ⟨o, BitVec.eq_of_toNat_eq ho⟩

theorem usesArg_eq_false_iff (o : Opcode) : o.usesArg = false ↔ o.bits.toNat ∈ [0x00, 0x03, 0x04, 0x05] := by
  cases o <;> decide

theorem usesCnt_eq_false_iff (o : Opcode) : o.usesCnt = false ↔ o.bits.toNat ≠ 0x09 := by
  cases o <;> decide

/-- The checks of the commands by operation code: no command has both (spec 60_exceptions R128). -/
theorem check_instr (n : Nat) (o : Opcode) (arg : BitVec 8) (cnt : BitVec 48) :
    Instr.check n (o.instr arg cnt) =
      if o.bits.toNat ∈ [0x01, 0x02] ∧ n ≤ arg.toNat then some .idxOob
      else if o.bits.toNat = 0x0A ∧ arg.toNat < 2 then some .illegalArg
      else none := by
  cases o with
  | fget | fflip => by_cases harg : arg.toNat < n <;> simp [Opcode.instr, Instr.check, Opcode.bits, harg]
  | burst => simp [Opcode.instr, Instr.check, Opcode.bits]
  | nop | frand | crc | tgt | exh | rnd => rfl

/-- Settles O39: an OP field is no operation code's, or is one's, whose reserved fields and own check come next. -/
theorem faultPriority : Obligations.FaultPriority := by
  intro word op arg cnt hop harg hcnt
  rw [← toNat_opField] at hop
  rw [← toNat_argField] at harg
  rw [← toNat_cntField] at hcnt
  subst hop harg hcnt
  by_cases hdefined : (opField word).toNat ∈ [0x00, 0x01, 0x02, 0x03, 0x04, 0x05, 0x08, 0x09, 0x0A]
  case neg =>
    rw [if_pos hdefined]
    exact faultOf_of_undefined fun o ho => hdefined (ho ▸ toNat_bits_mem o)
  case pos =>
    obtain ⟨o, ho⟩ := exists_bits_eq_of_mem hdefined
    rw [if_neg (not_not.2 hdefined), faultOf_of_opField ho.symm, check_instr, ← ho]
    simp only [reservedSet_eq_true_iff, usesArg_eq_false_iff, usesCnt_eq_false_iff]

/-! ### A step with a presented word -/

/-- An IDLE CORE accepts a presented word, whatever it decodes to. -/
theorem step_of_present_eq_runWord {s : State} {word : CmdWord} {rest : List HostPins} (hseq : s.seq = .idle)
    (hhost : s.host = HostPins.present word :: rest) : step s = runWord word { s with host := rest } := by
  have hpins : s.pins = HostPins.present word := by rw [State.pins, hhost, List.headD_cons]
  have hsampled : s.sampled = { s with host := rest } := by rw [State.sampled, hhost, List.tail_cons]
  simp [step, hpins, HostPins.present, hseq, hsampled]

/-- At decode or by the command's own check, the fault entry is the same, with the word presented in FINFO
(spec 60_exceptions R125). -/
theorem runWord_of_faultOf_some {word : CmdWord} {kind : FaultKind} (s : State) (h : faultOf 83 word = some kind) :
    runWord word s = .next (s.mapCore fun c => c.accept.faultEntry kind word) := by
  cases hdecode : decode word with
  | error kind' =>
    obtain rfl : kind' = kind := Option.some.inj ((faultOf_of_decode_error hdecode).symm.trans h)
    simp only [runWord, hdecode]
  | ok i =>
    have hcheck : Instr.check 83 i = some kind := (faultOf_of_decode_ok hdecode).symm.trans h
    have heffect := Instr.effect_of_check_some Config.poly s.accept hcheck
    rw [encode_of_decode hdecode] at heffect
    simp only [runWord, hdecode, exec_eq, State.mapCore, heffect]

/-- A word that raises no fault is a command's, which does its work and completes. -/
theorem runWord_of_faultOf_none {word : CmdWord} (s : State) (h : faultOf 83 word = none) :
    ∃ i, runWord word s = .next (s.mapCore fun c => (Instr.work Config.poly i c.accept).complete) := by
  cases hdecode : decode word with
  | error kind => exact nomatch (faultOf_of_decode_error hdecode).symm.trans h
  | ok i =>
    have hcheck : Instr.check 83 i = none := (faultOf_of_decode_ok hdecode).symm.trans h
    have heffect := Instr.effect_of_check_none Config.poly s.accept hcheck
    exact ⟨i, by simp only [runWord, hdecode, exec_eq, State.mapCore, heffect]⟩

/-- Settles O38: fault entry writes the fault registers and SEQ alone, and no command's work writes the fault
registers. -/
theorem faultsArePrecise : Obligations.FaultsArePrecise := by
  intro s word rest hseq hhost
  rw [step_of_present_eq_runWord hseq hhost]
  refine ⟨fun kind hkind => ?fault, fun hnone => ?noFault⟩
  case fault => rw [runWord_of_faultOf_some _ hkind]; rfl
  case noFault =>
    obtain ⟨i, hrun⟩ := runWord_of_faultOf_none { s with host := rest } hnone
    obtain ⟨hfcode, hfinfo⟩ := Instr.work_fault_registers Config.poly s.accept i
    exact ⟨_, hrun, rfl, hfcode, hfinfo, rfl⟩

/-! ### HALT -/

theorem step_of_rst {s : State} (hrst : s.pins.rst = true) :
    step s = .next (s.sampled.mapCore CoreState.applyReset) := if_pos hrst

/-- A HALTed CORE samples its pins and does nothing else (spec 60_exceptions R126). -/
theorem step_of_halt {s : State} (hseq : s.seq = .halt) (hrst : s.pins.rst = false) : step s = .next s.sampled := by
  simp [step, hseq, hrst]

/-- Settles O40: in HALT the ports show their registers, and a step is `step_of_halt` or the reset. -/
theorem haltIsLeftByResetAlone : Obligations.HaltIsLeftByResetAlone := by
  refine ⟨fun s hseq => ⟨?cmdReady, ?resultPorts⟩, fun s => step_of_halt,
    fun s _ hrst => ⟨_, step_of_rst hrst, rfl, rfl, rfl, rfl⟩⟩
  case cmdReady => simp [CoreState.cmdReady, s.ready_eq_decide, hseq]
  case resultPorts => simp [CoreState.resultPorts, hseq]

end Sys2Proof.Machine
end

section
/-!
The reference frame: the checksum is linear, so with the frame's own checksum as target the counters depend on the error
frames alone (spec 41_crcengine section 3, 43_collision_counter R102, 70_reset_and_hazards R148); and the boot sequence
that makes that checksum the target (R143).
-/

namespace Sys2Proof.Machine

variable {n w : Nat}

/-! ### Linearity -/

theorem crcAfter_xor (poly : BitVec w) (f g : BitVec n) (k : Nat) :
    crcAfter poly (f ^^^ g) k = crcAfter poly f k ^^^ crcAfter poly g k := by
  induction k with
  | zero => exact BitVec.xor_zero.symm
  | succ k ih => simp only [crcAfter, ih, frameRead_xor, crcStep_xor]

/-- The checksum of a sum is the sum of the checksums (spec 41_crcengine R76). -/
theorem crc_xor (poly : BitVec w) (f g : BitVec n) : crc poly (f ^^^ g) = crc poly f ^^^ crc poly g :=
  crcAfter_xor poly f g n

/-- With the frame's own checksum as target, a pattern collides exactly when its error frame has checksum 0. -/
theorem collides_crc_iff {poly : BitVec w} {f : BitVec n} {p : Pattern} :
    collides poly f (crc poly f) p = true ↔ crc poly (errorFrame n p) = 0#w := by
  rw [collides_eq_true_iff, crc_xor, ← BitVec.xor_right_inj (crc poly f) (y := 0#w), BitVec.xor_zero]

/-! ### What EXH and BURST count -/

theorem collisionCount_crc_eq (poly : BitVec w) (f g : BitVec n) (ps : List Pattern) :
    collisionCount poly f (crc poly f) ps = collisionCount poly g (crc poly g) ps :=
  List.countP_congr fun _ _ => collides_crc_iff.trans collides_crc_iff.symm

/-- Only RND takes its patterns from the random source. -/
theorem Sweep.patterns_congr {sw : Sweep} (h : ∀ k cnt, sw ≠ .rnd k cnt) (src src' : RandomSource) :
    (sw.patterns n src).1 = (sw.patterns n src').1 := by
  cases sw with
  | exh k | burst len => rfl
  | rnd k cnt => exact absurd rfl (h k cnt)

/-- Settles O34: EXH and BURST are sweeps over the same patterns in both states, and a pattern collides in the one when
it does in the other. -/
theorem countsDoNotDependOnTheReference : Obligations.CountsDoNotDependOnTheReference := by
  intro s s' t t' i k htarget htarget' hi hexec hexec'
  obtain ⟨sw, hcheck, hwork, hrnd⟩ : ∃ sw : Sweep, Instr.check 83 i = none ∧
      (∀ c : CoreState 83 Config.crcWidth, Instr.work Config.poly i c = c.sweep Config.poly sw) ∧ ∀ k cnt, sw ≠ .rnd k cnt := by
    rcases hi with rfl | ⟨rfl, hk⟩
    · exact ⟨.exh k, rfl, fun _ => rfl, nofun⟩
    · exact ⟨.burst k, Instr.check_burst hk, fun _ => rfl, nofun⟩
  cases (exec_eq_of_work_sweep s hcheck (hwork _)).symm.trans hexec
  cases (exec_eq_of_work_sweep s' hcheck (hwork _)).symm.trans hexec'
  refine ⟨rfl, congrArg (BitVec.ofNat 64) ?collisions, rfl⟩
  case collisions =>
    rw [htarget, htarget', Sweep.patterns_congr hrnd s.random s'.random]
    exact collisionCount_crc_eq Config.poly s.frame s'.frame _

/-! ### The boot sequence -/

/-- Settles O46: CSUM is the drawn frame's checksum, TGT copies it to TARGET, and neither changes FRAME or the
counters. -/
theorem bootKeepsTheReferenceChecksum : Obligations.BootKeepsTheReferenceChecksum :=
  fun s => ⟨_, _, _, exec_frand s, exec_eq .crc _, exec_eq .tgt _, rfl, rfl, rfl, rfl, rfl⟩

end Sys2Proof.Machine
end

section
/-!
FGET and FFLIP (spec 40_bitframe sections 2 and 3; 60_exceptions section 2): inside the frame the command's work, outside it
the fault entry; and flips as sums of single-bit frames.
-/

namespace Sys2Proof.Machine

/-! ### What `exec` makes of a command's own check -/

/-- A command whose own check fails takes that fault, with its word in FINFO (spec 60_exceptions R125; log 12). -/
theorem exec_of_check_some {i : Instr} {kind : FaultKind} (s : State) (h : Instr.check 83 i = some kind) :
    exec i s = .next { s with fcode := FaultKind.code kind, finfo := encode i, seq := .halt } := by
  rw [exec_eq, State.mapCore, Instr.effect_of_check_some Config.poly s.toCoreState h]
  rfl

/-- A command that passes its own check does its work and completes. -/
theorem exec_of_check_none {i : Instr} (s : State) (h : Instr.check 83 i = none) :
    exec i s = .next { s with toCoreState := (Instr.work Config.poly i s.toCoreState).complete } := by
  rw [exec_eq, State.mapCore, Instr.effect_of_check_none Config.poly s.toCoreState h]

/-- A word with a bit set in CNT, of a command that does not use CNT, has a reserved field set (spec 30_encoding R50). -/
theorem decode_of_cnt_set {word : CmdWord} (o : Opcode) (ho : o.usesCnt = false)
    (hop : word >>> 56 = o.bits.setWidth 64) (hcnt : word.toNat % 2 ^ 48 ≠ 0) : decode word = .error .illegalField :=
  decode_of_reserved o (toNat_opField_of_ushiftRight hop) (.inr ⟨ho, by rwa [toNat_cntField]⟩)

/-! ### FGET and FFLIP -/

/-- Settles O8: the check of the index decides between the read bit and the fault, and FGET has no CNT. -/
theorem fgetReadsOneBit : Obligations.FgetReadsOneBit :=
  ⟨fun _ s hi => exec_of_check_none s (if_pos hi),
    fun _ s hi => exec_of_check_some (kind := .idxOob) s (if_neg (Nat.not_lt_of_le hi)),
    fun _ hop hcnt => decode_of_cnt_set .fget rfl hop hcnt⟩

theorem frameRead_frameFlip_self {n i : Nat} (f : BitVec n) (hi : i < n) :
    frameRead (frameFlip f i) i = !frameRead f i := by
  simp [frameRead_frameFlip, hi]

theorem frameRead_frameFlip_of_ne {n i j : Nat} (f : BitVec n) (hj : j ≠ i) :
    frameRead (frameFlip f i) j = frameRead f j := by
  simp [frameRead_frameFlip, hj]

/-- Settles O9: the check of the index decides between the flip, read bit by bit, and the fault, and FFLIP has no CNT. -/
theorem fflipTogglesOneBit : Obligations.FflipTogglesOneBit := by
  refine ⟨fun i s hi => ⟨frameFlip s.frame i, exec_of_check_none s (if_pos hi), ?named, fun j hj => ?other⟩,
    fun _ s hi => exec_of_check_some (kind := .idxOob) s (if_neg (Nat.not_lt_of_le hi)),
    fun _ hop hcnt => decode_of_cnt_set .fflip rfl hop hcnt⟩
  case named => exact frameRead_frameFlip_self s.frame hi
  case other => exact frameRead_frameFlip_of_ne s.frame hj

/-- Settles O11: flips are sums, where two equal summands cancel and the order does not matter. -/
theorem flipsUndoAndCommute : Obligations.FlipsUndoAndCommute := by
  intro n f i j
  simp only [frameFlip_eq_xor]
  constructor
  · rw [BitVec.xor_assoc, BitVec.xor_self, BitVec.xor_zero]
  · rw [BitVec.xor_assoc, BitVec.xor_comm (BitVec.twoPow n i), BitVec.xor_assoc]

end Sys2Proof.Machine
end

section
/-!
The shift register bit by bit (spec 41_crcengine R70), and the CRC command (R74).
-/

namespace Sys2Proof.Machine

variable {w : Nat}

/-- Every bit after a step: the one below it, none below bit 0, plus the polynomial's if the top bit differs from the
input. -/
theorem crcStep_getLsbD (poly r : BitVec w) (b : Bool) {j : Nat} (hj : j < w) :
    (crcStep poly r b).getLsbD j =
      ((decide (1 ≤ j) && r.getLsbD (j - 1)) ^^ ((b ^^ r.getLsbD (w - 1)) && poly.getLsbD j)) := by
  have hshift : (r <<< 1).getLsbD j = (decide (1 ≤ j) && r.getLsbD (j - 1)) := by
    rw [BitVec.getLsbD_shiftLeft, decide_eq_true hj, Bool.true_and, ← decide_not]
    simp only [Nat.not_lt]
  rw [crcStep, BitVec.msb_eq_getLsbD_last]
  cases b ^^ r.getLsbD (w - 1)
  · simp [hshift]
  · simp [hshift]

/-- Adding the `(w + 1)`-bit pattern and dropping the top bit adds the low bits of the pattern. -/
theorem setWidth_xor_pattern (r : BitVec w) (pattern : BitVec (w + 1)) :
    (r.setWidth (w + 1) ^^^ pattern).setWidth w = r ^^^ pattern.setWidth w := by
  rw [BitVec.setWidth_xor, BitVec.setWidth_setWidth_of_le r (Nat.le_succ w), BitVec.setWidth_eq]

/-- Settles O12: each bit by `crcStep_getLsbD`, and the pattern's top bit is dropped again. -/
theorem crcStepBitByBit : Obligations.CrcStepBitByBit := by
  intro w poly r b hw
  refine ⟨?lowBit, fun j hj hjw => ?otherBits, fun pattern hpattern => ?pattern⟩
  case lowBit => simp [crcStep_getLsbD poly r b hw]
  case otherBits => rw [crcStep_getLsbD poly r b hjw, decide_eq_true hj, Bool.true_and]
  case pattern => rw [setWidth_xor_pattern, hpattern, crcStep, BitVec.msb_eq_getLsbD_last]

theorem exec_crc (s : State) :
    exec .crc s = .next { s with r := crc Config.poly s.frame, csum := crc Config.poly s.frame, seq := .idle } :=
  exec_eq .crc s

/-- Settles O16: CRC writes R, CSUM and SEQ from the frame, which it keeps, and has no operands. -/
theorem crcLatchesTheChecksum : Obligations.CrcLatchesTheChecksum := by
  refine ⟨exec_crc, fun s t u hexec hexec' => ?again, fun s hzero => ⟨_, exec_crc s, ?zeroFrame⟩,
    fun _ hop hlow => decode_of_low_bits_set .crc rfl rfl hop hlow⟩
  case again =>
    cases (exec_crc s).symm.trans hexec
    cases (exec_crc _).symm.trans hexec'
    rfl
  case zeroFrame => exact (congrArg (crc Config.poly) hzero).trans (crc_zero Config.poly)

end Sys2Proof.Machine
end

section
/-!
When a pattern collides (spec 41_crcengine R76, 43_collision_counter R102): by linearity the checksum of its error frame
decides, and a sweep counts the members for which it does. The empty pattern always does (R104), and a trial restores the
frame (R97).
-/

namespace Sys2Proof.Machine

variable {n w : Nat}

/-! ### The criterion -/

/-- A pattern collides exactly when its error frame's checksum makes up the target's difference from the frame's. -/
theorem collides_iff_crc_errorFrame {poly : BitVec w} {f : BitVec n} {target : BitVec w} {p : Pattern} :
    collides poly f target p = true ↔ crc poly (errorFrame n p) = target ^^^ crc poly f := by
  rw [collides_eq_true_iff, crc_xor, ← BitVec.xor_right_inj (crc poly f), ← BitVec.xor_assoc, BitVec.xor_self,
    BitVec.zero_xor, BitVec.xor_comm (crc poly f)]

theorem collisionCount_eq_countP_crc (poly : BitVec w) (f : BitVec n) (target : BitVec w) (ps : List Pattern) :
    collisionCount poly f target ps = ps.countP fun p => crc poly (errorFrame n p) == target ^^^ crc poly f :=
  List.countP_congr fun _ _ => collides_iff_crc_errorFrame.trans beq_iff_eq.symm

/-- COLLISIONS after a sweep (spec 43_collision_counter R98). -/
theorem CoreState.sweep_collisions (poly : BitVec w) (sw : Sweep) (s : CoreState n w) :
    (s.sweep poly sw).collisions =
      BitVec.ofNat 64 (collisionCount poly s.frame s.target (sw.patterns n s.random).1) := by
  rw [CoreState.sweep_eq]
  rfl

/-- Settles O15: `crc_xor`, and that a frame's own checksum leaves the error frame's alone to decide. -/
theorem checksumIsLinear : Obligations.ChecksumIsLinear :=
  ⟨fun _ _ => crc_xor, fun _ _ _ _ _ => collides_crc_iff⟩

/-- Settles O33: the criterion, counted over a sweep's sequence; with the frame's own checksum the difference is 0. -/
theorem collisionCriterion : Obligations.CollisionCriterion := by
  refine ⟨fun _ _ _ _ _ _ => collides_iff_crc_errorFrame, fun n w poly sw s => ?anyTarget,
    fun n w poly sw s htarget => ?ownChecksum⟩
  case anyTarget => rw [CoreState.sweep_collisions, collisionCount_eq_countP_crc]
  case ownChecksum => rw [CoreState.sweep_collisions, collisionCount_eq_countP_crc, htarget, BitVec.xor_self]

/-! ### The frame is restored -/

/-- Settles O30: a pattern's second application undoes the first, and no sweep command is FFLIP or FRAND. -/
theorem trialsRestoreTheFrame : Obligations.TrialsRestoreTheFrame := by
  refine ⟨fun _ => applyPattern_twice, fun n w poly p s => by rw [CoreState.trial_eq], fun i s t hop hexec => ?sweep⟩
  case sweep =>
    obtain ⟨hframe, -⟩ := onlyTheNamedCommandsWrite i s t hexec
    refine hframe ?_ ?_
    · rintro j rfl
      simp [Instr.opcode] at hop
    · rintro rfl
      simp [Instr.opcode] at hop

/-! ### The empty pattern -/

/-- Every draw of weight 0 is the empty pattern, which collides when the frame's checksum is the target. -/
theorem collisionCount_drawPatterns_zero (poly : BitVec w) (f : BitVec n) (cnt : Nat) (src : RandomSource) :
    collisionCount poly f (crc poly f) (drawPatterns n 0 cnt src).1 = cnt := by
  have hall : ∀ p ∈ (drawPatterns n 0 cnt src).1, collides poly f (crc poly f) p = true := by
    intro p hp
    obtain rfl : p = [] := List.eq_nil_of_length_eq_zero (mem_drawPatterns (Nat.zero_le n) hp).1
    rw [collides_nil, decide_eq_true rfl]
  rw [collisionCount, List.countP_eq_length.2 hall, length_drawPatterns]

/-- Settles O32: after CRC and TGT the frame's checksum is the target, so every empty pattern is counted. -/
theorem emptyPatternAlwaysCollides : Obligations.EmptyPatternAlwaysCollides := by
  refine fun s => ⟨_, _, _, exec_crc s, exec_eq .tgt _, exec_exh 0 _, rfl, congrArg (BitVec.ofNat 64) ?exh,
    fun cnt => ⟨_, exec_rnd cnt _ (Nat.zero_le 83), rfl, congrArg (BitVec.ofNat 64) ?rnd⟩⟩
  case exh => exact (collisionCount_exhPatterns_zero ..).trans (if_pos rfl)
  case rnd => exact collisionCount_drawPatterns_zero ..

end Sys2Proof.Machine
end

section
/-!
BURST (spec 43_collision_counter R101), and what the low polynomial bit buys: a pattern in a window no longer than the CRC
width never collides with the frame's own checksum (spec 41_crcengine R77, 95_test_vectors section 3).
-/

namespace Sys2Proof.Machine

variable {n w : Nat}

/-! ### The sweep -/

theorem exec_burst {len : Nat} (s : State) (hlen : 2 ≤ len) (hle : len ≤ 83) :
    exec (.burst len) s = .next { s with
      r := lastChecksum Config.poly s.frame s.r (burstPatterns 83 len)
      gen := .none
      trials := BitVec.ofNat 64 ((83 - len + 1) * 2 ^ (len - 2))
      collisions := BitVec.ofNat 64 (collisionCount Config.poly s.frame s.target (burstPatterns 83 len))
      ovf := decide (2 ^ 63 ≤ (83 - len + 1) * 2 ^ (len - 2))
      seq := .idle } := by
  have hsize : (Sweep.burst len).size 83 = (83 - len + 1) * 2 ^ (len - 2) := if_pos ⟨hlen, hle⟩
  rw [← hsize]
  exact exec_eq_of_work_sweep (sw := .burst len) s (Instr.check_burst hlen) rfl

/-- Settles O28: a short length fails BURST's own check, any other runs the sweep, an empty one above the frame length. -/
theorem burstSweepResult : Obligations.BurstSweepResult := by
  refine ⟨fun len s hlen => exec_of_check_some (kind := .illegalArg) s (if_pos hlen),
    fun _ s hlen hle => ⟨_, _, exec_burst s hlen hle⟩, fun len s hlen => ⟨.none, ?tooLong⟩,
    fun _ hop hcnt => decode_of_cnt_set .burst rfl hop hcnt⟩
  case tooLong =>
    have harg : 83 < (Sweep.burst len).arg := hlen
    rw [exec_of_work_sweep s (Instr.check_burst (by omega)) rfl,
      CoreState.sweep_of_lt_arg Config.poly s.toCoreState harg]
    rfl

/-! ### Patterns in a short window -/

/-- The pattern's indices lie in a window of at most `w` bits of the frame, and there is one. -/
def InWindow (n w : Nat) (p : Pattern) : Prop :=
  p ≠ [] ∧ ∃ s len, len ≤ w ∧ s + len ≤ n ∧ ∀ i ∈ p, s ≤ i ∧ i < s + len

/-- With the low polynomial bit 1, the error frame of a pattern in a short window has a checksum other than 0. -/
theorem crc_errorFrame_ne_zero {poly : BitVec w} (h0 : poly.getLsbD 0 = true) {p : Pattern} (hp : p.Nodup)
    (hwindow : InWindow n w p) : crc poly (errorFrame n p) ≠ 0#w := by
  obtain ⟨hne, s, len, hlen, hle, hin⟩ := hwindow
  intro hcrc
  obtain ⟨i, hi⟩ := List.exists_mem_of_ne_nil p hne
  have hout : ∀ j, j < s ∨ s + len ≤ j → frameRead (errorFrame n p) j = false := by
    intro j hj
    by_cases hjn : j < n
    · rw [frameRead_errorFrame p hp j hjn, decide_eq_false]
      intro hjp
      have := hin j hjp
      omega
    · exact BitVec.getLsbD_of_ge _ j (Nat.le_of_not_lt hjn)
  have hi_lt : i < n := by
    have := hin i hi
    omega
  have hfalse := frameRead_eq_false_of_window poly h0 _ s len hlen hle hout hcrc i
  rw [frameRead_errorFrame p hp i hi_lt, decide_eq_true hi] at hfalse
  exact Bool.noConfusion hfalse

/-- A sweep over patterns in short windows counts no collision with the frame's own checksum. -/
theorem CoreState.sweep_collisions_eq_zero {poly : BitVec w} {sw : Sweep} {s : CoreState n w}
    (h0 : poly.getLsbD 0 = true) (htarget : s.target = crc poly s.frame)
    (hwindow : ∀ p ∈ (sw.patterns n s.random).1, InWindow n w p) : (s.sweep poly sw).collisions = 0 := by
  have hnone : collisionCount poly s.frame s.target (sw.patterns n s.random).1 = 0 := by
    refine List.countP_eq_zero.2 fun p hp => ?_
    have hnodup : p.Nodup := (validPattern_of_mem_patterns hp).1.imp Nat.ne_of_lt
    rw [htarget, collides_crc_iff]
    exact crc_errorFrame_ne_zero h0 hnodup (hwindow p hp)
  rw [CoreState.sweep_collisions, hnone]
  rfl

theorem inWindow_of_mem_exhPatterns_one {p : Pattern} (hw : 0 < w) (hp : p ∈ exhPatterns n 1) : InWindow n w p := by
  obtain ⟨hlen, -, hlt⟩ := mem_exhPatterns_iff.1 hp
  obtain ⟨i, rfl⟩ := List.length_eq_one_iff.1 hlen
  have hi : i < n := hlt i List.mem_cons_self
  exact ⟨List.cons_ne_nil i [], i, 1, hw, hi, fun j hj => by rw [List.mem_singleton] at hj; omega⟩

theorem inWindow_of_mem_burstPatterns {len : Nat} {p : Pattern} (hw : len ≤ w) (hp : p ∈ burstPatterns n len) :
    InWindow n w p := by
  obtain ⟨⟨hlen, hle⟩, s, m, hs, -, rfl⟩ := mem_burstPatterns.1 hp
  refine ⟨List.cons_ne_nil s _, s, len, hw, by omega, fun i hi => ?_⟩
  rcases mem_burstPattern.1 hi with rfl | rfl | ⟨j, hj, -, rfl⟩ <;> omega

/-- Settles O18: one index is a window of one bit, and a polynomial with a bit has a width. -/
theorem singleBitErrorsNeverCollide : Obligations.SingleBitErrorsNeverCollide := by
  intro n w poly s h0 htarget
  have hw : 0 < w := BitVec.lt_of_getLsbD h0
  exact CoreState.sweep_collisions_eq_zero (sw := .exh 1) h0 htarget fun _ => inWindow_of_mem_exhPatterns_one hw

/-- Settles O19: a burst of length `L` lies in a window of `L` bits. -/
theorem shortBurstsNeverCollide : Obligations.ShortBurstsNeverCollide := by
  intro n w poly s len word h0 htarget hlen hle
  rw [CoreState.burst, if_neg (Nat.not_lt_of_le hlen)]
  exact CoreState.sweep_collisions_eq_zero (sw := .burst len) h0 htarget fun _ => inWindow_of_mem_burstPatterns hle

end Sys2Proof.Machine
end

section
/-! Reset, whatever SEQ is and whatever is presented (spec 70_reset_and_hazards R140, R141). -/

namespace Sys2Proof.Machine

/-- Settles O42: `rst` is looked at before SEQ and before the word (log 13); the model's GEN is then absent (log 8). -/
theorem resetFromAnyState : Obligations.ResetFromAnyState :=
  fun s hrst => ⟨.none, s.random, step_of_rst hrst⟩

end Sys2Proof.Machine
end
